-- ==== Sys2Proof/Word.lean ====
section
/-! DEFINITION. The word types of the machine (00_scope.md R5, R6). -/

namespace Sys2Proof

/-- A register value, the pc, an address or an instruction word: `XLEN = ILEN = 32` (R5). -/
abbrev Word := BitVec 32

/-- The smallest addressable unit (R23). -/
abbrev Byte := BitVec 8

/-- A register index, always a 5-bit instruction field, so every index is valid (R9). -/
abbrev RegIdx := BitVec 5

end Sys2Proof
end

