-- ==== Sys2Proof/WellFormed.lean ====
section
/-! DEFINITION. Which `Instr` terms stand for an instruction word: the range of each immediate (30_encoding.md R45 to R50)
and the words of the SYSTEM-other class (R57). -/

namespace Sys2Proof

/-- The range of the 12-bit immediates of the I and S formats, -2048 to +2047 (R45, R47). -/
def imm12Ok (imm : Word) : Bool :=
  decide (-2048 ≤ imm.toInt) && decide (imm.toInt ≤ 2047)

/-- The even byte offsets of the B format, -4096 to +4094 (R48). -/
def immBOk (imm : Word) : Bool :=
  decide (-4096 ≤ imm.toInt) && decide (imm.toInt ≤ 4094) && decide (imm.toNat % 2 = 0)

/-- The even byte offsets of the J format, -1048576 to +1048574 (R50). -/
def immJOk (imm : Word) : Bool :=
  decide (-1048576 ≤ imm.toInt) && decide (imm.toInt ≤ 1048574) && decide (imm.toNat % 2 = 0)

/-- The U format's immediate has its low 12 bits zero (R49). -/
def immUOk (imm : Word) : Bool :=
  decide (imm.toNat % 4096 = 0)

/-- A word of the SYSTEM opcode that is neither ECALL nor EBREAK (R57, R121). -/
def systemOtherOk (w : Word) : Bool :=
  decide (w.toNat % 128 = 0x73) && decide (w ≠ 0x00000073#32) && decide (w ≠ 0x00100073#32)

/-- The terms that some instruction word decodes to. -/
def Instr.wellFormed : Instr → Bool
  | .add _ _ _ => true
  | .sub _ _ _ => true
  | .sll _ _ _ => true
  | .slt _ _ _ => true
  | .sltu _ _ _ => true
  | .xor _ _ _ => true
  | .srl _ _ _ => true
  | .sra _ _ _ => true
  | .or _ _ _ => true
  | .and _ _ _ => true
  | .addi _ _ imm => imm12Ok imm
  | .slti _ _ imm => imm12Ok imm
  | .sltiu _ _ imm => imm12Ok imm
  | .xori _ _ imm => imm12Ok imm
  | .ori _ _ imm => imm12Ok imm
  | .andi _ _ imm => imm12Ok imm
  | .slli _ _ _ => true
  | .srli _ _ _ => true
  | .srai _ _ _ => true
  | .lb _ _ imm => imm12Ok imm
  | .lh _ _ imm => imm12Ok imm
  | .lw _ _ imm => imm12Ok imm
  | .lbu _ _ imm => imm12Ok imm
  | .lhu _ _ imm => imm12Ok imm
  | .sb _ _ imm => imm12Ok imm
  | .sh _ _ imm => imm12Ok imm
  | .sw _ _ imm => imm12Ok imm
  | .jalr _ _ imm => imm12Ok imm
  | .beq _ _ imm => immBOk imm
  | .bne _ _ imm => immBOk imm
  | .blt _ _ imm => immBOk imm
  | .bge _ _ imm => immBOk imm
  | .bltu _ _ imm => immBOk imm
  | .bgeu _ _ imm => immBOk imm
  | .jal _ imm => immJOk imm
  | .lui _ imm => immUOk imm
  | .auipc _ imm => immUOk imm
  | .ecall => true
  | .ebreak => true
  | .systemOther w => systemOtherOk w
  | .halt => true

end Sys2Proof
end

