-- ==== Sys2Proof/Decode.lean ====
section
/-! DEFINITION. The decoder (30_encoding.md R42 to R57), total on every word and every byte list and rejecting by name,
and after it the encoder (R44 to R51) and the opcode table (R53). The numeric function codes, the field positions outside
the R format and the choice of LUI's opcode are the spec's general-knowledge passages G1 to G3 (PRESUMED, log 21). -/

namespace Sys2Proof

/-- Why a word is no instruction. Every one of these is the fault IllegalInstruction of the word (R126, D19, log 18). -/
inductive DecodeReject where
  /-- `w[6:0]` is none of the ten known opcodes (R54). -/
  | unknownOpcode
  /-- An unlisted `(funct3, funct7)` pair under opcode `0110011` (R55, R81). -/
  | reservedRegisterFunction
  /-- A reserved `funct7` of the shift subtype (R55, R93). -/
  | reservedShiftFunction
  /-- A reserved `funct3` under the load opcode (R55, R100). -/
  | reservedLoadWidth
  /-- A reserved `funct3` under the store opcode (R55, R104). -/
  | reservedStoreWidth
  /-- A reserved `funct3` under the branch opcode (R55, R114). -/
  | reservedBranchCondition
  /-- `funct3` not 000 under the JALR opcode (R55, R107). -/
  | reservedJalrFunction
  /-- Fewer than the four bytes of an instruction (R42). -/
  | truncated
deriving DecidableEq, Repr

/-! Fields (R43 to R48). -/

/-- `w[6:0]` (R43). -/
def fieldOpcode (w : Word) : BitVec 7 := w.extractLsb' 0 7

/-- `w[11:7]` (R44). -/
def fieldRd (w : Word) : RegIdx := w.extractLsb' 7 5

/-- `w[14:12]` (R44). -/
def fieldFunct3 (w : Word) : BitVec 3 := w.extractLsb' 12 3

/-- `w[19:15]` (R44). -/
def fieldRs1 (w : Word) : RegIdx := w.extractLsb' 15 5

/-- `w[24:20]` (R44); the shift subtype's `shamt` too (R46). -/
def fieldRs2 (w : Word) : RegIdx := w.extractLsb' 20 5

/-- `w[31:25]` (R44, R46). -/
def fieldFunct7 (w : Word) : BitVec 7 := w.extractLsb' 25 7

/-! Immediates, sign-extended to 32 bits at decode (R45 to R50, R52). -/

/-- `sext_12(w[31:20])` (R45). -/
def immI (w : Word) : Word := (w.extractLsb' 20 12).signExtend 32

/-- `sext_12(w[31:25] ++ w[11:7])` (R47). -/
def immS (w : Word) : Word := (w.extractLsb' 25 7 ++ w.extractLsb' 7 5 : BitVec 12).signExtend 32

/-- `sext_13(w[31] ++ w[7] ++ w[30:25] ++ w[11:8] ++ 0)` (R48). -/
def immB (w : Word) : Word :=
  (w.extractLsb' 31 1 ++ w.extractLsb' 7 1 ++ w.extractLsb' 25 6 ++ w.extractLsb' 8 4 ++ 0#1 : BitVec 13).signExtend 32

/-- `w & 0xFFFFF000` (R49). -/
def immU (w : Word) : Word := w &&& 0xFFFFF000#32

/-- `sext_21(w[31] ++ w[19:12] ++ w[20] ++ w[30:21] ++ 0)` (R50). -/
def immJ (w : Word) : Word :=
  (w.extractLsb' 31 1 ++ w.extractLsb' 12 8 ++ w.extractLsb' 20 1 ++ w.extractLsb' 21 10 ++ 0#1 : BitVec 21).signExtend 32

/-! The opcode map (R53), one function per opcode that has function codes. -/

/-- Opcode `0110011` (R53, R70, R81). -/
def decodeRegister (w : Word) : Except DecodeReject Instr :=
  match fieldFunct3 w, fieldFunct7 w with
  | 0b000#3, 0b0000000#7 => .ok (.add (fieldRd w) (fieldRs1 w) (fieldRs2 w))
  | 0b000#3, 0b0100000#7 => .ok (.sub (fieldRd w) (fieldRs1 w) (fieldRs2 w))
  | 0b001#3, 0b0000000#7 => .ok (.sll (fieldRd w) (fieldRs1 w) (fieldRs2 w))
  | 0b010#3, 0b0000000#7 => .ok (.slt (fieldRd w) (fieldRs1 w) (fieldRs2 w))
  | 0b011#3, 0b0000000#7 => .ok (.sltu (fieldRd w) (fieldRs1 w) (fieldRs2 w))
  | 0b100#3, 0b0000000#7 => .ok (.xor (fieldRd w) (fieldRs1 w) (fieldRs2 w))
  | 0b101#3, 0b0000000#7 => .ok (.srl (fieldRd w) (fieldRs1 w) (fieldRs2 w))
  | 0b101#3, 0b0100000#7 => .ok (.sra (fieldRd w) (fieldRs1 w) (fieldRs2 w))
  | 0b110#3, 0b0000000#7 => .ok (.or (fieldRd w) (fieldRs1 w) (fieldRs2 w))
  | 0b111#3, 0b0000000#7 => .ok (.and (fieldRd w) (fieldRs1 w) (fieldRs2 w))
  | _, _ => .error .reservedRegisterFunction

/-- The right shifts of the shift subtype, `funct3 = 101` (R46, R91 to R93; the rejection is D6, log 12). -/
def decodeShiftRight (w : Word) : Except DecodeReject Instr :=
  match fieldFunct7 w with
  | 0b0000000#7 => .ok (.srli (fieldRd w) (fieldRs1 w) (fieldRs2 w))
  | 0b0100000#7 => .ok (.srai (fieldRd w) (fieldRs1 w) (fieldRs2 w))
  | _ => .error .reservedShiftFunction

/-- Opcode `0010011` (R53, R83, R93; the rejection is D6, log 12). -/
def decodeImmediate (w : Word) : Except DecodeReject Instr :=
  match fieldFunct3 w with
  | 0b000#3 => .ok (.addi (fieldRd w) (fieldRs1 w) (immI w))
  | 0b010#3 => .ok (.slti (fieldRd w) (fieldRs1 w) (immI w))
  | 0b011#3 => .ok (.sltiu (fieldRd w) (fieldRs1 w) (immI w))
  | 0b100#3 => .ok (.xori (fieldRd w) (fieldRs1 w) (immI w))
  | 0b110#3 => .ok (.ori (fieldRd w) (fieldRs1 w) (immI w))
  | 0b111#3 => .ok (.andi (fieldRd w) (fieldRs1 w) (immI w))
  | 0b001#3 =>
    if fieldFunct7 w = 0b0000000#7 then .ok (.slli (fieldRd w) (fieldRs1 w) (fieldRs2 w))
    else .error .reservedShiftFunction
  | _ => decodeShiftRight w

/-- Opcode `0000011` (R53, R100; the rejection is D6, log 12). -/
def decodeLoad (w : Word) : Except DecodeReject Instr :=
  match fieldFunct3 w with
  | 0b000#3 => .ok (.lb (fieldRd w) (fieldRs1 w) (immI w))
  | 0b001#3 => .ok (.lh (fieldRd w) (fieldRs1 w) (immI w))
  | 0b010#3 => .ok (.lw (fieldRd w) (fieldRs1 w) (immI w))
  | 0b100#3 => .ok (.lbu (fieldRd w) (fieldRs1 w) (immI w))
  | 0b101#3 => .ok (.lhu (fieldRd w) (fieldRs1 w) (immI w))
  | _ => .error .reservedLoadWidth

/-- Opcode `0100011` (R53, R104; the rejection is D6, log 12). -/
def decodeStore (w : Word) : Except DecodeReject Instr :=
  match fieldFunct3 w with
  | 0b000#3 => .ok (.sb (fieldRs1 w) (fieldRs2 w) (immS w))
  | 0b001#3 => .ok (.sh (fieldRs1 w) (fieldRs2 w) (immS w))
  | 0b010#3 => .ok (.sw (fieldRs1 w) (fieldRs2 w) (immS w))
  | _ => .error .reservedStoreWidth

/-- Opcode `1100011` (R53, R114; the rejection is D6, log 12). -/
def decodeBranch (w : Word) : Except DecodeReject Instr :=
  match fieldFunct3 w with
  | 0b000#3 => .ok (.beq (fieldRs1 w) (fieldRs2 w) (immB w))
  | 0b001#3 => .ok (.bne (fieldRs1 w) (fieldRs2 w) (immB w))
  | 0b100#3 => .ok (.blt (fieldRs1 w) (fieldRs2 w) (immB w))
  | 0b101#3 => .ok (.bge (fieldRs1 w) (fieldRs2 w) (immB w))
  | 0b110#3 => .ok (.bltu (fieldRs1 w) (fieldRs2 w) (immB w))
  | 0b111#3 => .ok (.bgeu (fieldRs1 w) (fieldRs2 w) (immB w))
  | _ => .error .reservedBranchCondition

/-- Opcode `1100111` (R107; the `funct3` test is D6, log 12). -/
def decodeJalr (w : Word) : Except DecodeReject Instr :=
  if fieldFunct3 w = 0b000#3 then .ok (.jalr (fieldRd w) (fieldRs1 w) (immI w))
  else .error .reservedJalrFunction

/-- Opcode `1110011`: two exact words, then everything else (R51, R57). -/
def decodeSystem (w : Word) : Instr :=
  if w = 0x00000073#32 then .ecall
  else if w = 0x00100073#32 then .ebreak
  else .systemOther w

/-- `decode(w)`, a pure function of the word (R42, R43, R65). The zero word is tested first: the spec's step tests it
before it calls its decoder (R56, R64), here it is the decoder's first line (log 20). -/
def decodeWord (w : Word) : Except DecodeReject Instr :=
  if w = 0#32 then .ok .halt
  else match fieldOpcode w with
    | 0b0110011#7 => decodeRegister w
    | 0b0010011#7 => decodeImmediate w
    | 0b0000011#7 => decodeLoad w
    | 0b0100011#7 => decodeStore w
    | 0b1100111#7 => decodeJalr w
    | 0b1100011#7 => decodeBranch w
    | 0b0110111#7 => .ok (.lui (fieldRd w) (immU w))
    | 0b0010111#7 => .ok (.auipc (fieldRd w) (immU w))
    | 0b1101111#7 => .ok (.jal (fieldRd w) (immJ w))
    | 0b1110011#7 => .ok (decodeSystem w)
    | _ => .error .unknownOpcode

/-- The word of four bytes, the lowest address first (R30). -/
def wordOfBytes (b0 b1 b2 b3 : Byte) : Word := b3 ++ b2 ++ b1 ++ b0

/-- Decoding from bytes as memory holds them: an instruction and the bytes after it (R30, R42). -/
def decodeBytes : List Byte → Except DecodeReject (Instr × List Byte)
  | b0 :: b1 :: b2 :: b3 :: rest => (decodeWord (wordOfBytes b0 b1 b2 b3)).map fun i => (i, rest)
  | _ => .error .truncated

/-- The four bytes of a word, the lowest address first (R30). -/
def bytesOfWord (w : Word) : List Byte :=
  [w.extractLsb' 0 8, w.extractLsb' 8 8, w.extractLsb' 16 8, w.extractLsb' 24 8]

/-- The word the opcode table numbers `w`: its low `nbits` bits, zeros above them. -/
def tableWord (nbits w : Nat) : Word := BitVec.ofNat 32 (w % 2 ^ nbits)

/-- The instruction the decoder reads from an instruction whose bits are `w`, numbered as spec/opcode_table.json
numbers them. -/
def decodeTableWord (nbits w : Nat) : Option Instr :=
  match decodeBytes (bytesOfWord (tableWord nbits w)) with
  | .ok (i, _) => some i
  | .error _ => none

/-! The encoder (R44 to R51). -/

/-- R format, and the shift subtype with `shamt` in the place of `rs2` (R44, R46). -/
def encodeR (funct7 : BitVec 7) (rs2 rs1 : RegIdx) (funct3 : BitVec 3) (rd : RegIdx) (opcode : BitVec 7) : Word :=
  funct7 ++ rs2 ++ rs1 ++ funct3 ++ rd ++ opcode

/-- I format (R45). -/
def encodeI (imm : Word) (rs1 : RegIdx) (funct3 : BitVec 3) (rd : RegIdx) (opcode : BitVec 7) : Word :=
  imm.extractLsb' 0 12 ++ rs1 ++ funct3 ++ rd ++ opcode

/-- S format (R47). -/
def encodeS (imm : Word) (rs2 rs1 : RegIdx) (funct3 : BitVec 3) (opcode : BitVec 7) : Word :=
  imm.extractLsb' 5 7 ++ rs2 ++ rs1 ++ funct3 ++ imm.extractLsb' 0 5 ++ opcode

/-- B format (R48). -/
def encodeB (imm : Word) (rs2 rs1 : RegIdx) (funct3 : BitVec 3) (opcode : BitVec 7) : Word :=
  imm.extractLsb' 12 1 ++ imm.extractLsb' 5 6 ++ rs2 ++ rs1 ++ funct3 ++ imm.extractLsb' 1 4 ++ imm.extractLsb' 11 1 ++
    opcode

/-- U format (R49). -/
def encodeU (imm : Word) (rd : RegIdx) (opcode : BitVec 7) : Word :=
  imm.extractLsb' 12 20 ++ rd ++ opcode

/-- J format (R50). -/
def encodeJ (imm : Word) (rd : RegIdx) (opcode : BitVec 7) : Word :=
  imm.extractLsb' 20 1 ++ imm.extractLsb' 1 10 ++ imm.extractLsb' 11 1 ++ imm.extractLsb' 12 8 ++ rd ++ opcode

/-- The word of an instruction (R44 to R53, R56, R57). -/
def encode : Instr → Word
  | .add rd rs1 rs2 => encodeR 0b0000000#7 rs2 rs1 0b000#3 rd 0b0110011#7
  | .sub rd rs1 rs2 => encodeR 0b0100000#7 rs2 rs1 0b000#3 rd 0b0110011#7
  | .sll rd rs1 rs2 => encodeR 0b0000000#7 rs2 rs1 0b001#3 rd 0b0110011#7
  | .slt rd rs1 rs2 => encodeR 0b0000000#7 rs2 rs1 0b010#3 rd 0b0110011#7
  | .sltu rd rs1 rs2 => encodeR 0b0000000#7 rs2 rs1 0b011#3 rd 0b0110011#7
  | .xor rd rs1 rs2 => encodeR 0b0000000#7 rs2 rs1 0b100#3 rd 0b0110011#7
  | .srl rd rs1 rs2 => encodeR 0b0000000#7 rs2 rs1 0b101#3 rd 0b0110011#7
  | .sra rd rs1 rs2 => encodeR 0b0100000#7 rs2 rs1 0b101#3 rd 0b0110011#7
  | .or rd rs1 rs2 => encodeR 0b0000000#7 rs2 rs1 0b110#3 rd 0b0110011#7
  | .and rd rs1 rs2 => encodeR 0b0000000#7 rs2 rs1 0b111#3 rd 0b0110011#7
  | .addi rd rs1 imm => encodeI imm rs1 0b000#3 rd 0b0010011#7
  | .slti rd rs1 imm => encodeI imm rs1 0b010#3 rd 0b0010011#7
  | .sltiu rd rs1 imm => encodeI imm rs1 0b011#3 rd 0b0010011#7
  | .xori rd rs1 imm => encodeI imm rs1 0b100#3 rd 0b0010011#7
  | .ori rd rs1 imm => encodeI imm rs1 0b110#3 rd 0b0010011#7
  | .andi rd rs1 imm => encodeI imm rs1 0b111#3 rd 0b0010011#7
  | .slli rd rs1 shamt => encodeR 0b0000000#7 shamt rs1 0b001#3 rd 0b0010011#7
  | .srli rd rs1 shamt => encodeR 0b0000000#7 shamt rs1 0b101#3 rd 0b0010011#7
  | .srai rd rs1 shamt => encodeR 0b0100000#7 shamt rs1 0b101#3 rd 0b0010011#7
  | .lb rd rs1 imm => encodeI imm rs1 0b000#3 rd 0b0000011#7
  | .lh rd rs1 imm => encodeI imm rs1 0b001#3 rd 0b0000011#7
  | .lw rd rs1 imm => encodeI imm rs1 0b010#3 rd 0b0000011#7
  | .lbu rd rs1 imm => encodeI imm rs1 0b100#3 rd 0b0000011#7
  | .lhu rd rs1 imm => encodeI imm rs1 0b101#3 rd 0b0000011#7
  | .sb rs1 rs2 imm => encodeS imm rs2 rs1 0b000#3 0b0100011#7
  | .sh rs1 rs2 imm => encodeS imm rs2 rs1 0b001#3 0b0100011#7
  | .sw rs1 rs2 imm => encodeS imm rs2 rs1 0b010#3 0b0100011#7
  | .jalr rd rs1 imm => encodeI imm rs1 0b000#3 rd 0b1100111#7
  | .beq rs1 rs2 imm => encodeB imm rs2 rs1 0b000#3 0b1100011#7
  | .bne rs1 rs2 imm => encodeB imm rs2 rs1 0b001#3 0b1100011#7
  | .blt rs1 rs2 imm => encodeB imm rs2 rs1 0b100#3 0b1100011#7
  | .bge rs1 rs2 imm => encodeB imm rs2 rs1 0b101#3 0b1100011#7
  | .bltu rs1 rs2 imm => encodeB imm rs2 rs1 0b110#3 0b1100011#7
  | .bgeu rs1 rs2 imm => encodeB imm rs2 rs1 0b111#3 0b1100011#7
  | .jal rd imm => encodeJ imm rd 0b1101111#7
  | .lui rd imm => encodeU imm rd 0b0110111#7
  | .auipc rd imm => encodeU imm rd 0b0010111#7
  | .ecall => 0x00000073#32
  | .ebreak => 0x00100073#32
  | .systemOther w => w
  | .halt => 0#32

/-! The opcode table of spec/opcode_table.json (R53): a word is of a row when its bits under `mask` are `value`. -/

/-- One row of the opcode table. -/
structure OpcodeRow where
  mnemonic : String
  value : Word
  mask : Word
deriving DecidableEq, Repr

/-- The word's bits under the row's mask are the row's. -/
def OpcodeRow.accepts (r : OpcodeRow) (w : Word) : Prop := w &&& r.mask = r.value

/-- The rows of opcode `0110011`. -/
def registerRows : List OpcodeRow :=
  [ ⟨"ADD", 0x00000033#32, 0xFE00707F#32⟩,
    ⟨"SUB", 0x40000033#32, 0xFE00707F#32⟩,
    ⟨"SLL", 0x00001033#32, 0xFE00707F#32⟩,
    ⟨"SLT", 0x00002033#32, 0xFE00707F#32⟩,
    ⟨"SLTU", 0x00003033#32, 0xFE00707F#32⟩,
    ⟨"XOR", 0x00004033#32, 0xFE00707F#32⟩,
    ⟨"SRL", 0x00005033#32, 0xFE00707F#32⟩,
    ⟨"SRA", 0x40005033#32, 0xFE00707F#32⟩,
    ⟨"OR", 0x00006033#32, 0xFE00707F#32⟩,
    ⟨"AND", 0x00007033#32, 0xFE00707F#32⟩ ]

/-- The rows of opcode `0010011`. -/
def immediateRows : List OpcodeRow :=
  [ ⟨"ADDI", 0x00000013#32, 0x0000707F#32⟩,
    ⟨"SLTI", 0x00002013#32, 0x0000707F#32⟩,
    ⟨"SLTIU", 0x00003013#32, 0x0000707F#32⟩,
    ⟨"XORI", 0x00004013#32, 0x0000707F#32⟩,
    ⟨"ORI", 0x00006013#32, 0x0000707F#32⟩,
    ⟨"ANDI", 0x00007013#32, 0x0000707F#32⟩,
    ⟨"SLLI", 0x00001013#32, 0xFE00707F#32⟩,
    ⟨"SRLI", 0x00005013#32, 0xFE00707F#32⟩,
    ⟨"SRAI", 0x40005013#32, 0xFE00707F#32⟩ ]

/-- The rows of opcodes `0000011` and `0100011`. -/
def memoryRows : List OpcodeRow :=
  [ ⟨"LB", 0x00000003#32, 0x0000707F#32⟩,
    ⟨"LH", 0x00001003#32, 0x0000707F#32⟩,
    ⟨"LW", 0x00002003#32, 0x0000707F#32⟩,
    ⟨"LBU", 0x00004003#32, 0x0000707F#32⟩,
    ⟨"LHU", 0x00005003#32, 0x0000707F#32⟩,
    ⟨"SB", 0x00000023#32, 0x0000707F#32⟩,
    ⟨"SH", 0x00001023#32, 0x0000707F#32⟩,
    ⟨"SW", 0x00002023#32, 0x0000707F#32⟩ ]

/-- The rows of opcodes `1100111`, `1100011` and `1101111`. -/
def controlRows : List OpcodeRow :=
  [ ⟨"JALR", 0x00000067#32, 0x0000707F#32⟩,
    ⟨"BEQ", 0x00000063#32, 0x0000707F#32⟩,
    ⟨"BNE", 0x00001063#32, 0x0000707F#32⟩,
    ⟨"BLT", 0x00004063#32, 0x0000707F#32⟩,
    ⟨"BGE", 0x00005063#32, 0x0000707F#32⟩,
    ⟨"BLTU", 0x00006063#32, 0x0000707F#32⟩,
    ⟨"BGEU", 0x00007063#32, 0x0000707F#32⟩,
    ⟨"JAL", 0x0000006f#32, 0x0000007F#32⟩ ]

/-- The rows of the U formats, of SYSTEM and of the zero word. -/
def otherRows : List OpcodeRow :=
  [ ⟨"LUI", 0x00000037#32, 0x0000007F#32⟩,
    ⟨"AUIPC", 0x00000017#32, 0x0000007F#32⟩,
    ⟨"ECALL", 0x00000073#32, 0xFFFFFFFF#32⟩,
    ⟨"EBREAK", 0x00100073#32, 0xFFFFFFFF#32⟩,
    ⟨"SYSTEM-other", 0x00000073#32, 0x0000007F#32⟩,
    ⟨"HALT", 0x00000000#32, 0xFFFFFFFF#32⟩ ]

/-- The table row of an instruction. -/
def Instr.row : Instr → OpcodeRow
  | .add _ _ _ => ⟨"ADD", 0x00000033#32, 0xFE00707F#32⟩
  | .sub _ _ _ => ⟨"SUB", 0x40000033#32, 0xFE00707F#32⟩
  | .sll _ _ _ => ⟨"SLL", 0x00001033#32, 0xFE00707F#32⟩
  | .slt _ _ _ => ⟨"SLT", 0x00002033#32, 0xFE00707F#32⟩
  | .sltu _ _ _ => ⟨"SLTU", 0x00003033#32, 0xFE00707F#32⟩
  | .xor _ _ _ => ⟨"XOR", 0x00004033#32, 0xFE00707F#32⟩
  | .srl _ _ _ => ⟨"SRL", 0x00005033#32, 0xFE00707F#32⟩
  | .sra _ _ _ => ⟨"SRA", 0x40005033#32, 0xFE00707F#32⟩
  | .or _ _ _ => ⟨"OR", 0x00006033#32, 0xFE00707F#32⟩
  | .and _ _ _ => ⟨"AND", 0x00007033#32, 0xFE00707F#32⟩
  | .addi _ _ _ => ⟨"ADDI", 0x00000013#32, 0x0000707F#32⟩
  | .slti _ _ _ => ⟨"SLTI", 0x00002013#32, 0x0000707F#32⟩
  | .sltiu _ _ _ => ⟨"SLTIU", 0x00003013#32, 0x0000707F#32⟩
  | .xori _ _ _ => ⟨"XORI", 0x00004013#32, 0x0000707F#32⟩
  | .ori _ _ _ => ⟨"ORI", 0x00006013#32, 0x0000707F#32⟩
  | .andi _ _ _ => ⟨"ANDI", 0x00007013#32, 0x0000707F#32⟩
  | .slli _ _ _ => ⟨"SLLI", 0x00001013#32, 0xFE00707F#32⟩
  | .srli _ _ _ => ⟨"SRLI", 0x00005013#32, 0xFE00707F#32⟩
  | .srai _ _ _ => ⟨"SRAI", 0x40005013#32, 0xFE00707F#32⟩
  | .lb _ _ _ => ⟨"LB", 0x00000003#32, 0x0000707F#32⟩
  | .lh _ _ _ => ⟨"LH", 0x00001003#32, 0x0000707F#32⟩
  | .lw _ _ _ => ⟨"LW", 0x00002003#32, 0x0000707F#32⟩
  | .lbu _ _ _ => ⟨"LBU", 0x00004003#32, 0x0000707F#32⟩
  | .lhu _ _ _ => ⟨"LHU", 0x00005003#32, 0x0000707F#32⟩
  | .sb _ _ _ => ⟨"SB", 0x00000023#32, 0x0000707F#32⟩
  | .sh _ _ _ => ⟨"SH", 0x00001023#32, 0x0000707F#32⟩
  | .sw _ _ _ => ⟨"SW", 0x00002023#32, 0x0000707F#32⟩
  | .jalr _ _ _ => ⟨"JALR", 0x00000067#32, 0x0000707F#32⟩
  | .beq _ _ _ => ⟨"BEQ", 0x00000063#32, 0x0000707F#32⟩
  | .bne _ _ _ => ⟨"BNE", 0x00001063#32, 0x0000707F#32⟩
  | .blt _ _ _ => ⟨"BLT", 0x00004063#32, 0x0000707F#32⟩
  | .bge _ _ _ => ⟨"BGE", 0x00005063#32, 0x0000707F#32⟩
  | .bltu _ _ _ => ⟨"BLTU", 0x00006063#32, 0x0000707F#32⟩
  | .bgeu _ _ _ => ⟨"BGEU", 0x00007063#32, 0x0000707F#32⟩
  | .jal _ _ => ⟨"JAL", 0x0000006f#32, 0x0000007F#32⟩
  | .lui _ _ => ⟨"LUI", 0x00000037#32, 0x0000007F#32⟩
  | .auipc _ _ => ⟨"AUIPC", 0x00000017#32, 0x0000007F#32⟩
  | .ecall => ⟨"ECALL", 0x00000073#32, 0xFFFFFFFF#32⟩
  | .ebreak => ⟨"EBREAK", 0x00100073#32, 0xFFFFFFFF#32⟩
  | .systemOther _ => ⟨"SYSTEM-other", 0x00000073#32, 0x0000007F#32⟩
  | .halt => ⟨"HALT", 0x00000000#32, 0xFFFFFFFF#32⟩

/-- The 41 rows. -/
def opcodeTable : List OpcodeRow := registerRows ++ immediateRows ++ memoryRows ++ controlRows ++ otherRows

end Sys2Proof
end

