-- ==== Sys2Proof/Machine/Flags.lean ====
section
/-! DEFINITION. The hardware has no flags (10_state.md R18). Here are the comparisons that take their place: those that
write 0 or 1 to a register and those that decide a branch (41_alu_register.md R74, R75, R82; 44_control_transfer.md R108
to R113). -/

namespace Sys2Proof.Machine

/-- `a <s b` (R6). -/
def lessSigned (a b : Word) : Bool := a.slt b

/-- `a <u b` (R6). -/
def lessUnsigned (a b : Word) : Bool := a.ult b

/-- A comparison result is exactly 0 or 1 (R82). -/
def flagWord (c : Bool) : Word := if c then 1#32 else 0#32

end Sys2Proof.Machine
end

