-- ==== Sys2Proof/Config.lean ====
section
/-! DEFINITION. What construction fixes (00_scope.md R5, 20_memory.md R24, 10_state.md R22) and the free values. -/

namespace Sys2Proof

/-- The control-line state of the bus record (R17). -/
inductive BusCtrl where
  | idle
  | read
  | write
deriving DecidableEq, Repr, Inhabited

namespace Config

/-- The smallest capacity the spec defines a machine for (R5, R23, D1). -/
def minCapacity : Nat := 0xA0000

/-- Last address of RAM, whose first is 0 (R24). -/
def ramEnd : Nat := 0x7FFFF

/-- Last address of video memory (R24). -/
def videoEnd : Nat := 0x8FFFF

/-- Last address of the reserved region (R24). -/
def reservedEnd : Nat := 0x9FBFF

/-- First address of the peripheral region (R24). -/
def periphBase : Nat := 0x9FC00

/-- Last address of the peripheral region (R24). -/
def periphEnd : Nat := 0x9FFFF

/-- `RESET_PC` (R5, R22; DESIGN CHOICE of the spec, D8, log 3). -/
def resetPc : Word := 0#32

/-- `REG_INIT`'s recommended value for each of x1..x31 (R5, R22; DESIGN CHOICE, unsafe, log 2). -/
def regInit : Word := 0#32

/-- What a storage cell that memory does not list reads as: the recommended `MEM_INIT`
(R5, R22; DESIGN CHOICE, unsafe, log 4). -/
def unlistedByte : Byte := 0#8

/-- BUS.data after a transaction whose memory call failed: any value (R35, R131, U6).
A free value: it has no body, so no proof can know it (log 6). -/
opaque failedBusData : Nat → Word

/-- BUS.ctrl after a transaction whose memory call failed: any value (R35, R131, U6).
A free value (log 6). -/
opaque failedBusCtrl : Nat → BusCtrl

end Config
end Sys2Proof
end

