-- ==== Sys2Proof/Machine/State.lean ====
section
/-! DEFINITION. The state of the machine (10_state.md R9 to R22), its reset, and the ways a step can stop. -/

namespace Sys2Proof.Machine

/-- The four clean ends of a run (R14, R127; named apart as D10 names them, log 14). -/
inductive HaltCause where
  | endOfSpace
  | zeroWord
  | ecall
  | ebreak
deriving DecidableEq, Repr

/-- The two faults of the hardware (R14, R124 to R126). The arguments are recorded as D12 says (log 14). -/
inductive FaultCause where
  | outOfBounds (addr : Word)
  | illegalInstruction (word : Word)
deriving DecidableEq, Repr

/-- The run status (R14). -/
inductive RunStatus where
  | running
  | halted (cause : HaltCause)
  | faulted (cause : FaultCause)
deriving DecidableEq, Repr

/-- A diagnostic event reported to the host (R7 `report`, R121). -/
inductive Report where
  | unrecognizedSystem (word : Word)
deriving DecidableEq, Repr

/-- The storage of RAM, VIDEO and PERIPH (R16) as one list of cells: the cell of a RAM or VIDEO byte stands at the
byte's own address, the cell of peripheral slot k at the slot's first address 0x9FC00 + 4k (log 8). -/
abbrev Memory := List Host.Cell

/-- The whole state of the machine (R9 to R17). -/
structure State where
  /-- `x1` to `x31`; `x0` is not stored (R9, R10). -/
  regs : Vector Word 31
  /-- The address of the instruction being executed (R12). -/
  pc : Word
  /-- The run status (R14). -/
  status : RunStatus
  /-- RAM, VIDEO and PERIPH (R16). -/
  mem : Memory
  /-- BUS.addr (R17). -/
  busAddr : Word
  /-- BUS.data (R17). -/
  busData : Word
  /-- BUS.ctrl (R17). -/
  busCtrl : BusCtrl
  /-- What the machine has reported to the host, oldest first (R121, D22, log 19). -/
  reports : List Report
  /-- `CAPACITY`, fixed at construction: no step changes it (R5, R23, log 1). -/
  capacity : Nat
  /-- The model's own counter from which the free values of U6 are drawn (log 6, log 7). -/
  freeCount : Nat
deriving DecidableEq, Repr

/-- Construction of a machine with a capacity, register contents and memory contents (R140, R22).
BUS.addr, BUS.data and the counter are named by the model (log 5, log 7). -/
def State.construct (capacity : Nat) (regInit : Vector Word 31) (memInit : Memory) : State where
  regs := regInit
  pc := Config.resetPc
  status := .running
  mem := memInit
  busAddr := 0#32
  busData := 0#32
  busCtrl := .idle
  reports := []
  capacity := capacity
  freeCount := 0

/-- The machine right after reset: construction with the recommended parameters of R5 (log 1 to log 5, log 7). -/
def State.reset : State :=
  State.construct Config.minCapacity (Vector.replicate 31 Config.regInit) []

/-- Stops that are no state of the hardware. There is none: every fault and halt of the spec is a run status, hence a
next state (R14, R124, R131, log 25). No meaning and no step ever answers a fault, so this is safe. -/
inductive Fault where
deriving DecidableEq, Repr

/-- Why the model gives no meaning to a step. -/
inductive Refusal where
  /-- Raised by exec's arm of an instruction that has no meaning yet; no arm raises it. Safe. -/
  | notModelled (mnemonic : String)
  /-- Raised by the step alone, of a machine whose capacity is below 0xA0000, which the spec does not define and tells a
  model to refuse (D1, U7, U8, log 1). Safe. -/
  | capacityBelowMinimum
deriving DecidableEq, Repr

end Sys2Proof.Machine
end

