-- ==== Sys2Proof/Machine/Ops.lean ====
section
/-! DEFINITION. The named operations: registers and pc (10_state.md R9 to R13), storage and the address decoder
(20_memory.md R24 to R29), the bus (R35, R36), and the four outcomes of an instruction (00_scope.md R8), the taking of a
fault and of a halt among them (60_exceptions.md R124 to R132; there is no return from either, R132). -/

namespace Sys2Proof.Machine

/-! Registers and pc. -/

/-- A 5-bit index that is not 0 names one of the 31 stored registers (R9, R10). -/
theorem regSlot_lt (r : RegIdx) (h : r ≠ 0#5) : r.toNat - 1 < 31 := by
  have := r.isLt
  have : r.toNat ≠ 0 := fun e => h (BitVec.eq_of_toNat_eq (by simpa using e))
  omega

/-- `x[i]`: register 0 reads as zero (R9, R10). -/
def State.readReg (s : State) (r : RegIdx) : Word :=
  if h : r = 0#5 then 0#32 else s.regs[r.toNat - 1]'(regSlot_lt r h)

/-- `x[i] <- v`: a write of register 0 is discarded (R10, R11). -/
def State.writeReg (s : State) (r : RegIdx) (v : Word) : State :=
  if h : r = 0#5 then s else { s with regs := s.regs.set (r.toNat - 1) v (regSlot_lt r h) }

/-- The pc advance of a step whose instruction fell through, modulo 2^32 (R13, R66; D4, log 10). -/
def State.advancePc (s : State) : State := { s with pc := s.pc + 4#32 }

/-- `pc <- t` (R7, R13). -/
def State.jumpTo (s : State) (t : Word) : State := { s with pc := t }

/-! Faults, halts and reports. -/

/-- Taking a fault: the run status records it; the pc, the registers and the storage stay as they are (R125, R126, R131). -/
def State.takeFault (s : State) (f : FaultCause) : State := { s with status := .faulted f }

/-- Taking a halt: the run status records the cause, nothing else changes (R127, R131). -/
def State.takeHalt (s : State) (c : HaltCause) : State := { s with status := .halted c }

/-- `report(event)`: an output to the host (R7, R121; D22, log 19). -/
def State.report (s : State) (r : Report) : State := { s with reports := s.reports ++ [r] }

/-- The four outcomes of executing one instruction (R8). -/
inductive Effect where
  /-- The step adds 4 to the pc. -/
  | fallThrough (s : State)
  /-- The instruction has written the pc. -/
  | jumped (s : State)
  /-- ECALL, EBREAK, and the zero word. -/
  | halt (c : HaltCause) (s : State)
  /-- OutOfBounds or IllegalInstruction. -/
  | fault (f : FaultCause) (s : State)
deriving DecidableEq, Repr

/-- The end of an instruction: the pc advance of a fall-through, nothing more for a jump, the status for a halt or a
fault (R8, R66, R69). -/
def complete : Effect → Host.Outcome State Fault Refusal
  | .fallThrough s => .next s.advancePc
  | .jumped s => .next s
  | .halt c s => .next (s.takeHalt c)
  | .fault f s => .next (s.takeFault f)

/-! The address decoder. -/

/-- The four regions (R24). -/
inductive Region where
  | ram
  | video
  | reserved
  | peripheral
deriving DecidableEq, Repr

/-- `resolve(a)`: the region of an address, or none (R24). -/
def resolve (a : Word) : Option Region :=
  if a.toNat ≤ Config.ramEnd then some .ram
  else if a.toNat ≤ Config.videoEnd then some .video
  else if a.toNat ≤ Config.reservedEnd then some .reserved
  else if a.toNat ≤ Config.periphEnd then some .peripheral
  else none

/-- The cell of the peripheral slot that an address of the peripheral region selects: region-relative address divided by
4 (R25, R26; one cell a slot, log 8). -/
def slotCell (a : Word) : Nat := Config.periphBase + 4 * ((a.toNat - Config.periphBase) / 4)

/-! The list of cells. -/

/-- The content of a cell; a cell that is not listed holds `Config.unlistedByte`. -/
def Memory.lookup : Memory → Nat → Byte
  | [], _ => Config.unlistedByte
  | (k, b) :: m, a => if k = a then b else Memory.lookup m a

/-- Puts a byte before a list, unless it is what an unlisted cell reads as. -/
def Memory.put (a : Nat) (b : Byte) (m : Memory) : Memory :=
  if b = Config.unlistedByte then m else (a, b) :: m

/-- Sets a cell and keeps the canonical form. -/
def Memory.insert : Memory → Nat → Byte → Memory
  | [], a, b => Memory.put a b []
  | (k, c) :: m, a, b =>
    if a < k then Memory.put a b ((k, c) :: m)
    else if a = k then Memory.put a b m
    else (k, c) :: Memory.insert m a b

/-- The cells there are: the bytes of RAM and VIDEO and the 256 slots (R16). -/
def isCell (k : Nat) : Bool :=
  decide (k ≤ Config.videoEnd) ||
    (decide (Config.periphBase ≤ k) && decide (k ≤ Config.periphEnd) && decide (k % 4 = 0))

/-- The canonical form: addresses strictly rising, no entry equal to what an unlisted cell reads as, and only cells the
hardware has. -/
abbrev Memory.wf (m : Memory) : Prop :=
  m.Pairwise (fun c d => c.1 < d.1) ∧ ∀ c ∈ m, c.2 ≠ Config.unlistedByte ∧ isCell c.1 = true

/-! Byte, halfword and word access. -/

/-- `ReadByte(a)`; none where the address resolves to no region (R25). -/
def readByte (m : Memory) (a : Word) : Option Byte :=
  match resolve a with
  | some .ram => some (m.lookup a.toNat)
  | some .video => some (m.lookup a.toNat)
  | some .reserved => some 0#8
  | some .peripheral => some (m.lookup (slotCell a))
  | none => none

/-- `WriteByte(a, b)`; none where the address resolves to no region (R26). -/
def writeByte (m : Memory) (a : Word) (b : Byte) : Option Memory :=
  match resolve a with
  | some .ram => some (m.insert a.toNat b)
  | some .video => some (m.insert a.toNat b)
  | some .reserved => some m
  | some .peripheral => some (m.insert (slotCell a) b)
  | none => none

/-- The model's read of one byte of a state. -/
def State.byteAt (s : State) (a : Word) : Option Byte := readByte s.mem a

/-- The access widths (R32). -/
inductive Width where
  | byte
  | half
  | word
deriving DecidableEq, Repr

/-- The number of bytes of an access (R32). -/
def Width.bytes : Width → Nat
  | .byte => 1
  | .half => 2
  | .word => 4

/-- `v[8n-1:0]`, zero-extended (R29, R36). -/
def Width.truncate : Width → Word → Word
  | .byte, v => (v.setWidth 8).setWidth 32
  | .half, v => (v.setWidth 16).setWidth 32
  | .word, v => v

/-- The bounds pre-check of a halfword or word access fails: its last byte is not below CAPACITY, added without wrap. A
byte access has no pre-check (R27; D2, log 9). -/
def preCheckFails (capacity : Nat) (a : Word) : Width → Bool
  | .byte => false
  | .half => decide (capacity ≤ a.toNat + 1)
  | .word => decide (capacity ≤ a.toNat + 3)

/-- `n` byte reads in increasing address order, least significant first; the first byte that resolves to no region is
the fault (R28, R30). -/
def readBytes (m : Memory) : Word → Nat → Except FaultCause Word
  | _, 0 => .ok 0#32
  | a, n + 1 =>
    match readByte m a with
    | none => .error (.outOfBounds a)
    | some b =>
      match readBytes m (a + 1#32) n with
      | .error f => .error f
      | .ok rest => .ok (rest <<< 8 ||| b.setWidth 32)

/-- `n` byte writes in increasing address order, least significant first. The bytes before one that resolves to no
region stay written (R29). -/
def writeBytes (m : Memory) : Word → Word → Nat → Memory × Option FaultCause
  | _, _, 0 => (m, none)
  | a, v, n + 1 =>
    match writeByte m a (v.setWidth 8) with
    | none => (m, some (.outOfBounds a))
    | some m' => writeBytes m' (a + 1#32) (v >>> 8) n

/-- `MemRead(a, n)` without the bus: an unsigned 8n-bit value or a fault (R28). -/
def memRead (capacity : Nat) (m : Memory) (a : Word) (n : Width) : Except FaultCause Word :=
  if preCheckFails capacity a n then .error (.outOfBounds a) else readBytes m a n.bytes

/-- `MemWrite(a, n, v)` without the bus: the storage after it, and the fault if there is one (R29). -/
def memWrite (capacity : Nat) (m : Memory) (a : Word) (n : Width) (v : Word) : Memory × Option FaultCause :=
  if preCheckFails capacity a n then (m, some (.outOfBounds a)) else writeBytes m a v n.bytes

/-! The bus. -/

/-- The bus record after a transaction that succeeded (R35, R36). -/
def State.busDone (s : State) (a data : Word) : State :=
  { s with busAddr := a, busData := data, busCtrl := .idle }

/-- The bus record after a transaction whose memory call failed: BUS.addr is the access address, BUS.data and BUS.ctrl
are free values (R35, R131, U6; log 6). -/
def State.busFailed (s : State) (a : Word) : State :=
  { s with
    busAddr := a
    busData := Config.failedBusData s.freeCount
    busCtrl := Config.failedBusCtrl s.freeCount
    freeCount := s.freeCount + 1 }

/-- How a bus transaction ends: the datum and the state after it, or the fault it propagates (R35). -/
inductive Access where
  | done (v : Word) (s : State)
  | failed (f : FaultCause) (s : State)
deriving DecidableEq, Repr

/-- `BusRead(a, n)` (R35). -/
def busRead (a : Word) (n : Width) (s : State) : Access :=
  match memRead s.capacity s.mem a n with
  | .ok v => .done v (s.busDone a v)
  | .error f => .failed f (s.busFailed a)

/-- `BusWrite(a, n, v)`; the data field takes the value written (R36; D14, log 17). -/
def busWrite (a : Word) (n : Width) (v : Word) (s : State) : Access :=
  match memWrite s.capacity s.mem a n v with
  | (m, none) => .done (n.truncate v) ({ s with mem := m }.busDone a (n.truncate v))
  | (m, some f) => .failed f ({ s with mem := m }.busFailed a)

end Sys2Proof.Machine
end

