-- ==== Sys2Proof/Machine/Operands.lean ====
section
/-! DEFINITION. How operands, addresses and targets are formed (41_alu_register.md R73, 43_loads_stores.md R94,
44_control_transfer.md R106 to R115, 45_upper_immediate.md R118) and how a loaded datum is extended (R95 to R99). -/

namespace Sys2Proof.Machine

/-- The effective address of a load or a store, modulo 2^32 (R94; D5, log 11). -/
def effectiveAddress (s : State) (rs1 : RegIdx) (imm : Word) : Word := s.readReg rs1 + imm

/-- The target of a branch or of JAL, modulo 2^32 (R106; D4, log 10). -/
def pcRelative (s : State) (imm : Word) : Word := s.pc + imm

/-- The target of JALR: bit 0 of the sum cleared (R107). -/
def jalrTarget (s : State) (rs1 : RegIdx) (imm : Word) : Word := (s.readReg rs1 + imm) &&& 0xFFFFFFFE#32

/-- The link value of JAL and JALR (R106; D4, log 10). -/
def linkValue (s : State) : Word := s.pc + 4#32

/-- The shift amount of a register shift: the low 5 bits (R73, R77, R78; for SRL see log 26). -/
def shiftAmount (v : Word) : Nat := (v &&& 0x1F#32).toNat

/-- `sext_8` (R6, R95). -/
def signExtendByte (v : Word) : Word := (v.setWidth 8).signExtend 32

/-- `sext_16` (R6, R96). -/
def signExtendHalf (v : Word) : Word := (v.setWidth 16).signExtend 32

/-- `zext_8` (R6, R98). -/
def zeroExtendByte (v : Word) : Word := (v.setWidth 8).setWidth 32

/-- `zext_16` (R6, R99). -/
def zeroExtendHalf (v : Word) : Word := (v.setWidth 16).setWidth 32

end Sys2Proof.Machine
end

