-- ==== Sys2Proof/Machine/AluImm.lean ====
section
/-! DEFINITION. The register-immediate instructions (42_alu_immediate.md R83 to R92). -/

namespace Sys2Proof.Machine

/-- What the nine share: the source is read, one result is written, the instruction falls through (R83). -/
def aluImm (op : Word → Word) (rd rs1 : RegIdx) (s : State) : Host.Outcome State Fault Refusal :=
  complete (.fallThrough (s.writeReg rd (op (s.readReg rs1))))

/-- ADDI (R84). -/
def execAddi (rd rs1 : RegIdx) (imm : Word) (s : State) : Host.Outcome State Fault Refusal :=
  aluImm (fun a => a + imm) rd rs1 s

/-- SLTI (R85). -/
def execSlti (rd rs1 : RegIdx) (imm : Word) (s : State) : Host.Outcome State Fault Refusal :=
  aluImm (fun a => flagWord (lessSigned a imm)) rd rs1 s

/-- SLTIU: the sign-extended immediate compared as unsigned (R86; D15, log 13). -/
def execSltiu (rd rs1 : RegIdx) (imm : Word) (s : State) : Host.Outcome State Fault Refusal :=
  aluImm (fun a => flagWord (lessUnsigned a imm)) rd rs1 s

/-- XORI (R87). -/
def execXori (rd rs1 : RegIdx) (imm : Word) (s : State) : Host.Outcome State Fault Refusal :=
  aluImm (fun a => a ^^^ imm) rd rs1 s

/-- ORI (R88). -/
def execOri (rd rs1 : RegIdx) (imm : Word) (s : State) : Host.Outcome State Fault Refusal :=
  aluImm (fun a => a ||| imm) rd rs1 s

/-- ANDI (R89). -/
def execAndi (rd rs1 : RegIdx) (imm : Word) (s : State) : Host.Outcome State Fault Refusal :=
  aluImm (fun a => a &&& imm) rd rs1 s

/-- SLLI (R90). -/
def execSlli (rd rs1 : RegIdx) (shamt : BitVec 5) (s : State) : Host.Outcome State Fault Refusal :=
  aluImm (fun a => a <<< shamt.toNat) rd rs1 s

/-- SRLI (R91). -/
def execSrli (rd rs1 : RegIdx) (shamt : BitVec 5) (s : State) : Host.Outcome State Fault Refusal :=
  aluImm (fun a => a >>> shamt.toNat) rd rs1 s

/-- SRAI (R92). -/
def execSrai (rd rs1 : RegIdx) (shamt : BitVec 5) (s : State) : Host.Outcome State Fault Refusal :=
  aluImm (fun a => a.sshiftRight shamt.toNat) rd rs1 s

end Sys2Proof.Machine
end

