-- ==== Sys2Proof/Machine/AluReg.lean ====
section
/-! DEFINITION. The register-register instructions (41_alu_register.md R70 to R80). -/

namespace Sys2Proof.Machine

/-- What the ten share: both sources are read, one result is written, the instruction falls through (R70). -/
def aluReg (op : Word → Word → Word) (rd rs1 rs2 : RegIdx) (s : State) : Host.Outcome State Fault Refusal :=
  complete (.fallThrough (s.writeReg rd (op (s.readReg rs1) (s.readReg rs2))))

/-- ADD (R71). -/
def execAdd (rd rs1 rs2 : RegIdx) (s : State) : Host.Outcome State Fault Refusal :=
  aluReg (fun a b => a + b) rd rs1 rs2 s

/-- SUB (R72). -/
def execSub (rd rs1 rs2 : RegIdx) (s : State) : Host.Outcome State Fault Refusal :=
  aluReg (fun a b => a - b) rd rs1 rs2 s

/-- SLL (R73). -/
def execSll (rd rs1 rs2 : RegIdx) (s : State) : Host.Outcome State Fault Refusal :=
  aluReg (fun a b => a <<< shiftAmount b) rd rs1 rs2 s

/-- SLT (R74). -/
def execSlt (rd rs1 rs2 : RegIdx) (s : State) : Host.Outcome State Fault Refusal :=
  aluReg (fun a b => flagWord (lessSigned a b)) rd rs1 rs2 s

/-- SLTU (R75). -/
def execSltu (rd rs1 rs2 : RegIdx) (s : State) : Host.Outcome State Fault Refusal :=
  aluReg (fun a b => flagWord (lessUnsigned a b)) rd rs1 rs2 s

/-- XOR (R76). -/
def execXor (rd rs1 rs2 : RegIdx) (s : State) : Host.Outcome State Fault Refusal :=
  aluReg (fun a b => a ^^^ b) rd rs1 rs2 s

/-- SRL (R77). -/
def execSrl (rd rs1 rs2 : RegIdx) (s : State) : Host.Outcome State Fault Refusal :=
  aluReg (fun a b => a >>> shiftAmount b) rd rs1 rs2 s

/-- SRA (R78). -/
def execSra (rd rs1 rs2 : RegIdx) (s : State) : Host.Outcome State Fault Refusal :=
  aluReg (fun a b => a.sshiftRight (shiftAmount b)) rd rs1 rs2 s

/-- OR (R79). -/
def execOr (rd rs1 rs2 : RegIdx) (s : State) : Host.Outcome State Fault Refusal :=
  aluReg (fun a b => a ||| b) rd rs1 rs2 s

/-- AND (R80). -/
def execAnd (rd rs1 rs2 : RegIdx) (s : State) : Host.Outcome State Fault Refusal :=
  aluReg (fun a b => a &&& b) rd rs1 rs2 s

end Sys2Proof.Machine
end

