-- ==== Sys2Proof/Machine/Control.lean ====
section
/-! DEFINITION. Control transfer (44_control_transfer.md R106 to R115). -/

namespace Sys2Proof.Machine

/-- What the branches share: on a true predicate the pc is written and the branch has jumped, otherwise it falls
through (R106). -/
def branchIf (taken : Bool) (imm : Word) (s : State) : Host.Outcome State Fault Refusal :=
  if taken then complete (.jumped (s.jumpTo (pcRelative s imm))) else complete (.fallThrough s)

/-- The end of JAL and JALR: the link is written, then the pc; the target was computed before (R68, R107, R115). -/
def linkAndJump (rd : RegIdx) (target : Word) (s : State) : Host.Outcome State Fault Refusal :=
  complete (.jumped ((s.writeReg rd (linkValue s)).jumpTo target))

/-- JALR (R107). -/
def execJalr (rd rs1 : RegIdx) (imm : Word) (s : State) : Host.Outcome State Fault Refusal :=
  linkAndJump rd (jalrTarget s rs1 imm) s

/-- BEQ (R108). -/
def execBeq (rs1 rs2 : RegIdx) (imm : Word) (s : State) : Host.Outcome State Fault Refusal :=
  branchIf (s.readReg rs1 == s.readReg rs2) imm s

/-- BNE (R109). -/
def execBne (rs1 rs2 : RegIdx) (imm : Word) (s : State) : Host.Outcome State Fault Refusal :=
  branchIf (s.readReg rs1 != s.readReg rs2) imm s

/-- BLT (R110). -/
def execBlt (rs1 rs2 : RegIdx) (imm : Word) (s : State) : Host.Outcome State Fault Refusal :=
  branchIf (lessSigned (s.readReg rs1) (s.readReg rs2)) imm s

/-- BGE (R111). -/
def execBge (rs1 rs2 : RegIdx) (imm : Word) (s : State) : Host.Outcome State Fault Refusal :=
  branchIf (!lessSigned (s.readReg rs1) (s.readReg rs2)) imm s

/-- BLTU (R112). -/
def execBltu (rs1 rs2 : RegIdx) (imm : Word) (s : State) : Host.Outcome State Fault Refusal :=
  branchIf (lessUnsigned (s.readReg rs1) (s.readReg rs2)) imm s

/-- BGEU (R113). -/
def execBgeu (rs1 rs2 : RegIdx) (imm : Word) (s : State) : Host.Outcome State Fault Refusal :=
  branchIf (!lessUnsigned (s.readReg rs1) (s.readReg rs2)) imm s

/-- JAL (R115). -/
def execJal (rd : RegIdx) (imm : Word) (s : State) : Host.Outcome State Fault Refusal :=
  linkAndJump rd (pcRelative s imm) s

end Sys2Proof.Machine
end

