-- ==== Sys2Proof/Machine/LoadStore.lean ====
section
/-! DEFINITION. The loads and stores (43_loads_stores.md R94 to R103, R105). -/

namespace Sys2Proof.Machine

/-- What the loads share: one bus read, then the write of the extended datum; a failed read writes no register
(R94, R105). -/
def loadInto (n : Width) (extend : Word → Word) (rd rs1 : RegIdx) (imm : Word) (s : State) :
    Host.Outcome State Fault Refusal :=
  match busRead (effectiveAddress s rs1 imm) n s with
  | .done v s' => complete (.fallThrough (s'.writeReg rd (extend v)))
  | .failed f s' => complete (.fault f s')

/-- What the stores share: one bus write of the low bits of `x[rs2]` (R94, R105). -/
def storeFrom (n : Width) (rs1 rs2 : RegIdx) (imm : Word) (s : State) : Host.Outcome State Fault Refusal :=
  match busWrite (effectiveAddress s rs1 imm) n (s.readReg rs2) s with
  | .done _ s' => complete (.fallThrough s')
  | .failed f s' => complete (.fault f s')

/-- LB (R95). -/
def execLb (rd rs1 : RegIdx) (imm : Word) (s : State) : Host.Outcome State Fault Refusal :=
  loadInto .byte signExtendByte rd rs1 imm s

/-- LH (R96). -/
def execLh (rd rs1 : RegIdx) (imm : Word) (s : State) : Host.Outcome State Fault Refusal :=
  loadInto .half signExtendHalf rd rs1 imm s

/-- LW (R97). -/
def execLw (rd rs1 : RegIdx) (imm : Word) (s : State) : Host.Outcome State Fault Refusal :=
  loadInto .word id rd rs1 imm s

/-- LBU (R98). -/
def execLbu (rd rs1 : RegIdx) (imm : Word) (s : State) : Host.Outcome State Fault Refusal :=
  loadInto .byte zeroExtendByte rd rs1 imm s

/-- LHU (R99). -/
def execLhu (rd rs1 : RegIdx) (imm : Word) (s : State) : Host.Outcome State Fault Refusal :=
  loadInto .half zeroExtendHalf rd rs1 imm s

/-- SB (R101). -/
def execSb (rs1 rs2 : RegIdx) (imm : Word) (s : State) : Host.Outcome State Fault Refusal :=
  storeFrom .byte rs1 rs2 imm s

/-- SH (R102). -/
def execSh (rs1 rs2 : RegIdx) (imm : Word) (s : State) : Host.Outcome State Fault Refusal :=
  storeFrom .half rs1 rs2 imm s

/-- SW (R103). -/
def execSw (rs1 rs2 : RegIdx) (imm : Word) (s : State) : Host.Outcome State Fault Refusal :=
  storeFrom .word rs1 rs2 imm s

end Sys2Proof.Machine
end

