-- ==== Sys2Proof/Machine/System.lean ====
section
/-! DEFINITION. The system instructions and the zero word (46_system.md R119 to R122). -/

namespace Sys2Proof.Machine

/-- ECALL: a halt with its own cause (R119). -/
def execEcall (s : State) : Host.Outcome State Fault Refusal := complete (.halt .ecall s)

/-- EBREAK: a halt with its own cause (R120). -/
def execEbreak (s : State) : Host.Outcome State Fault Refusal := complete (.halt .ebreak s)

/-- Every other SYSTEM word: reported, otherwise a no-op (R121; the record of the report is log 19). -/
def execSystemOther (w : Word) (s : State) : Host.Outcome State Fault Refusal :=
  complete (.fallThrough (s.report (.unrecognizedSystem w)))

/-- The zero word: the step's clean end of a program (R64, R122; log 20). -/
def execHalt (s : State) : Host.Outcome State Fault Refusal := complete (.halt .zeroWord s)

end Sys2Proof.Machine
end

