-- ==== Sys2Proof/Machine/Upper.lean ====
section
/-! DEFINITION. The upper-immediate instructions (45_upper_immediate.md R117, R118). -/

namespace Sys2Proof.Machine

/-- LUI (R117). -/
def execLui (rd : RegIdx) (imm : Word) (s : State) : Host.Outcome State Fault Refusal :=
  complete (.fallThrough (s.writeReg rd imm))

/-- AUIPC: the pc of the AUIPC itself plus the immediate (R118). -/
def execAuipc (rd : RegIdx) (imm : Word) (s : State) : Host.Outcome State Fault Refusal :=
  complete (.fallThrough (s.writeReg rd (pcRelative s imm)))

end Sys2Proof.Machine
end

