-- ==== Sys2Proof/Machine/Cycle.lean ====
section
/-! DEFINITION. The fetch-decode-execute cycle that `step` calls (40_step_cycle.md R61 to R66, 60_exceptions.md R130). -/

namespace Sys2Proof.Machine

/-- The four bytes `pc .. pc+3` do not all lie below CAPACITY, added without wrap (R62; D3, log 9). -/
def endOfSpace (s : State) : Bool := decide (s.capacity ≤ s.pc.toNat + 3)

/-- One `read32` transaction at the pc (R63). -/
def fetch (s : State) : Access := busRead s.pc .word s

/-- Decode and execute a fetched word; a word the decoder rejects raises IllegalInstruction (R64 to R66, R126). -/
def runWord (w : Word) (s : State) : Host.Outcome State Fault Refusal :=
  match decodeWord w with
  | .error _ => complete (.fault (.illegalInstruction w) s)
  | .ok i => exec i s

/-- One step of a machine that is Running (R61, R130). -/
def runningStep (s : State) : Host.Outcome State Fault Refusal :=
  if endOfSpace s then complete (.halt .endOfSpace s)
  else match fetch s with
    | .failed f s' => complete (.fault f s')
    | .done w s' => runWord w s'

/-- The step: refused for a machine the spec does not define (D1, U8, log 1), nothing when the status is not Running
(R61, R132; D11, log 15), and the cycle otherwise. -/
def cycle (s : State) : Host.Outcome State Fault Refusal :=
  if s.capacity < Config.minCapacity then .refused .capacityBelowMinimum
  else match s.status with
    | .running => runningStep s
    | .halted _ => .next s
    | .faulted _ => .next s

/-! Placing a word where the next step fetches it. -/

/-- The machine made ready for a fetch from storage: Running, with a capacity the spec defines, and with its pc where
four bytes of RAM or VIDEO follow. A state that is so already does not change (log 23). -/
def State.readyToFetch (s : State) : State :=
  { s with
    pc := if s.pc.toNat + 3 ≤ Config.videoEnd then s.pc else Config.resetPc
    status := .running
    capacity := max s.capacity Config.minCapacity }

/-- The word stored at the pc as the loader stores it (R141). -/
def State.placeWord (s : State) (w : Word) : State :=
  { s with mem := (memWrite s.capacity s.mem s.pc .word w).1 }

end Sys2Proof.Machine
end

