-- ==== Sys2Proof/Machine/Step.lean ====
section
/-! DEFINITION. The step and the run loop (40_step_cycle.md R61, R67), and the placing of one instruction word. -/

namespace Sys2Proof.Machine

/-- `step()` (R61). -/
def step (s : State) : Host.Outcome State Fault Refusal := cycle s

/-- `run()` under fuel: steps while the status is Running (R67, R145; the fuel is D20, log 27). -/
def run : Nat → State → Host.Outcome State Fault Refusal
  | 0, s => .next s
  | k + 1, s =>
    match s.status with
    | .running =>
      match step s with
      | .next t => run k t
      | .fault r => .fault r
      | .refused r => .refused r
    | .halted _ => .next s
    | .faulted _ => .next s

/-- `s` with the instruction whose bits are `w` (numbered as spec/opcode_table.json numbers them) where `step` fetches
its next instruction (log 23). -/
def State.withFetchWord (s : State) (nbits w : Nat) : State := s.readyToFetch.placeWord (tableWord nbits w)

end Sys2Proof.Machine
end

