-- ==== Sys2Proof/Machine/HostOps.lean ====
section
/-! DEFINITION. What the host may do between steps (70_reset_and_hazards.md R141, R142). The accessors reach storage
without the bus record (N18, log 23); `step` and `run` are in Step.lean, construction in State.lean. -/

namespace Sys2Proof.Machine

/-- A memory accessor's write: the state after it, and the OutOfBounds raised to the host if there is one (R142, R29). -/
def State.hostWrite (s : State) (a : Word) (n : Width) (v : Word) : State × Option FaultCause :=
  ({ s with mem := (memWrite s.capacity s.mem a n v).1 }, (memWrite s.capacity s.mem a n v).2)

/-- A memory accessor's read: no effect on the state (R142, R28). -/
def State.hostRead (s : State) (a : Word) (n : Width) : Except FaultCause Word := memRead s.capacity s.mem a n

/-- `writeWord(address, value)` (R141, R142). -/
def State.writeWord (s : State) (a v : Word) : State × Option FaultCause := s.hostWrite a .word v

/-- Seeding a register before launch (R141 item 4, R142). -/
def State.hostWriteReg (s : State) (r : RegIdx) (v : Word) : State := s.writeReg r v

/-- `RegisterFile.read(index)` (R142, R145). -/
def State.hostReadReg (s : State) (r : RegIdx) : Word := s.readReg r

/-- The loader from an address on: 32-bit words at consecutive word addresses, in order, until one fails (R141). -/
def State.loadFrom (s : State) : Word → List Word → State × Option FaultCause
  | _, [] => (s, none)
  | a, w :: ws =>
    match s.writeWord a w with
    | (t, none) => t.loadFrom (a + 4#32) ws
    | (t, some f) => (t, some f)

/-- The loader: word `i` at address `4i` (R141). -/
def State.loadProgram (s : State) (ws : List Word) : State × Option FaultCause := s.loadFrom 0#32 ws

end Sys2Proof.Machine
end

