-- ==== Sys2Proof/Safety.lean ====
section
/-! DEFINITION. The terms in which statements about the machine are made: the invariant, the end of a run
(70_reset_and_hazards.md R145), which state an instruction may change (10_state.md R11), and frames. -/

namespace Sys2Proof.Machine

/-- `u32(z)` (R6). -/
def u32 (z : Int) : Word := BitVec.ofInt 32 z

/-! Runs. -/

/-- The run ended well (R132, R145). -/
def RunStatus.endedWell : RunStatus → Bool
  | .running => false
  | .halted _ => true
  | .faulted _ => false

/-- The run ended badly (R132, R145). -/
def RunStatus.endedBadly : RunStatus → Bool
  | .running => false
  | .halted _ => false
  | .faulted _ => true

/-- No fault within `k` steps. -/
def SafeFor (k : Nat) (s : State) : Prop :=
  ∀ j t, j ≤ k → run j s = .next t → t.status.endedBadly = false

/-- What every step keeps: memory in its canonical form, a capacity the spec defines (R23, D1), and an idle bus control
line unless a transaction has failed (R17). -/
structure Inv (s : State) : Prop where
  memory : s.mem.wf
  capacity : Config.minCapacity ≤ s.capacity
  bus : (∀ a, s.status ≠ .faulted (.outOfBounds a)) → s.busCtrl = .idle

end Sys2Proof.Machine

namespace Sys2Proof

open Machine

/-! Which state an instruction may change. -/

/-- The register an instruction writes (the Write column of R11's table). -/
def Instr.destination : Instr → Option RegIdx
  | .add rd _ _ | .sub rd _ _ | .sll rd _ _ | .slt rd _ _ | .sltu rd _ _ => some rd
  | .xor rd _ _ | .srl rd _ _ | .sra rd _ _ | .or rd _ _ | .and rd _ _ => some rd
  | .addi rd _ _ | .slti rd _ _ | .sltiu rd _ _ | .xori rd _ _ | .ori rd _ _ | .andi rd _ _ => some rd
  | .slli rd _ _ | .srli rd _ _ | .srai rd _ _ => some rd
  | .lb rd _ _ | .lh rd _ _ | .lw rd _ _ | .lbu rd _ _ | .lhu rd _ _ => some rd
  | .sb _ _ _ | .sh _ _ _ | .sw _ _ _ => none
  | .jalr rd _ _ | .jal rd _ | .lui rd _ | .auipc rd _ => some rd
  | .beq _ _ _ | .bne _ _ _ | .blt _ _ _ | .bge _ _ _ | .bltu _ _ _ | .bgeu _ _ _ => none
  | .ecall | .ebreak | .systemOther _ | .halt => none

/-- The same instruction with another destination register; itself where it has none (R10, R11). -/
def Instr.withDestination (r : RegIdx) : Instr → Instr
  | .add _ a b => .add r a b
  | .sub _ a b => .sub r a b
  | .sll _ a b => .sll r a b
  | .slt _ a b => .slt r a b
  | .sltu _ a b => .sltu r a b
  | .xor _ a b => .xor r a b
  | .srl _ a b => .srl r a b
  | .sra _ a b => .sra r a b
  | .or _ a b => .or r a b
  | .and _ a b => .and r a b
  | .addi _ a i => .addi r a i
  | .slti _ a i => .slti r a i
  | .sltiu _ a i => .sltiu r a i
  | .xori _ a i => .xori r a i
  | .ori _ a i => .ori r a i
  | .andi _ a i => .andi r a i
  | .slli _ a i => .slli r a i
  | .srli _ a i => .srli r a i
  | .srai _ a i => .srai r a i
  | .lb _ a i => .lb r a i
  | .lh _ a i => .lh r a i
  | .lw _ a i => .lw r a i
  | .lbu _ a i => .lbu r a i
  | .lhu _ a i => .lhu r a i
  | .sb a b i => .sb a b i
  | .sh a b i => .sh a b i
  | .sw a b i => .sw a b i
  | .jalr _ a i => .jalr r a i
  | .beq a b i => .beq a b i
  | .bne a b i => .bne a b i
  | .blt a b i => .blt a b i
  | .bge a b i => .bge a b i
  | .bltu a b i => .bltu a b i
  | .bgeu a b i => .bgeu a b i
  | .jal _ i => .jal r i
  | .lui _ i => .lui r i
  | .auipc _ i => .auipc r i
  | .ecall => .ecall
  | .ebreak => .ebreak
  | .systemOther w => .systemOther w
  | .halt => .halt

/-- A word of the SYSTEM class that is neither ECALL nor EBREAK (R57): the only instructions that report. -/
def Instr.reportOf : Instr → List Report
  | .add _ _ _ | .sub _ _ _ | .sll _ _ _ | .slt _ _ _ | .sltu _ _ _ | .xor _ _ _ | .srl _ _ _ | .sra _ _ _ | .or _ _ _ | .and _ _ _ => []
  | .addi _ _ _ | .slti _ _ _ | .sltiu _ _ _ | .xori _ _ _ | .ori _ _ _ | .andi _ _ _ => []
  | .slli _ _ _ | .srli _ _ _ | .srai _ _ _ => []
  | .lb _ _ _ | .lh _ _ _ | .lw _ _ _ | .lbu _ _ _ | .lhu _ _ _ => []
  | .sb _ _ _ | .sh _ _ _ | .sw _ _ _ => []
  | .jalr _ _ _ | .jal _ _ => []
  | .beq _ _ _ | .bne _ _ _ | .blt _ _ _ | .bge _ _ _ | .bltu _ _ _ | .bgeu _ _ _ => []
  | .lui _ _ | .auipc _ _ => []
  | .systemOther w => [.unrecognizedSystem w]
  | .ecall | .ebreak | .halt => []

/-- SB, SH, SW: the only instructions that write memory (R16, R23). -/
def Instr.isStore : Instr → Bool
  | .add _ _ _ | .sub _ _ _ | .sll _ _ _ | .slt _ _ _ | .sltu _ _ _ | .xor _ _ _ | .srl _ _ _ | .sra _ _ _ | .or _ _ _ | .and _ _ _ => false
  | .addi _ _ _ | .slti _ _ _ | .sltiu _ _ _ | .xori _ _ _ | .ori _ _ _ | .andi _ _ _ => false
  | .slli _ _ _ | .srli _ _ _ | .srai _ _ _ => false
  | .lb _ _ _ | .lh _ _ _ | .lw _ _ _ | .lbu _ _ _ | .lhu _ _ _ => false
  | .sb _ _ _ | .sh _ _ _ | .sw _ _ _ => true
  | .jalr _ _ _ | .jal _ _ => false
  | .beq _ _ _ | .bne _ _ _ | .blt _ _ _ | .bge _ _ _ | .bltu _ _ _ | .bgeu _ _ _ => false
  | .lui _ _ | .auipc _ _ => false
  | .ecall | .ebreak | .systemOther _ | .halt => false

/-- The loads: with the stores the only instructions that make a data transaction (R23, R37). -/
def Instr.isLoad : Instr → Bool
  | .add _ _ _ | .sub _ _ _ | .sll _ _ _ | .slt _ _ _ | .sltu _ _ _ | .xor _ _ _ | .srl _ _ _ | .sra _ _ _ | .or _ _ _ | .and _ _ _ => false
  | .addi _ _ _ | .slti _ _ _ | .sltiu _ _ _ | .xori _ _ _ | .ori _ _ _ | .andi _ _ _ => false
  | .slli _ _ _ | .srli _ _ _ | .srai _ _ _ => false
  | .lb _ _ _ | .lh _ _ _ | .lw _ _ _ | .lbu _ _ _ | .lhu _ _ _ => true
  | .sb _ _ _ | .sh _ _ _ | .sw _ _ _ => false
  | .jalr _ _ _ | .jal _ _ => false
  | .beq _ _ _ | .bne _ _ _ | .blt _ _ _ | .bge _ _ _ | .bltu _ _ _ | .bgeu _ _ _ => false
  | .lui _ _ | .auipc _ _ => false
  | .ecall | .ebreak | .systemOther _ | .halt => false

/-- Where an instruction that jumps goes; none for one that falls through (R66, R107 to R115). -/
def Instr.jumpTarget (s : State) : Instr → Option Word
  | .jal _ imm => some (s.pc + imm)
  | .jalr _ rs1 imm => some ((s.readReg rs1 + imm) &&& 0xFFFFFFFE#32)
  | .beq rs1 rs2 imm => if s.readReg rs1 = s.readReg rs2 then some (s.pc + imm) else none
  | .bne rs1 rs2 imm => if s.readReg rs1 ≠ s.readReg rs2 then some (s.pc + imm) else none
  | .blt rs1 rs2 imm => if (s.readReg rs1).toInt < (s.readReg rs2).toInt then some (s.pc + imm) else none
  | .bge rs1 rs2 imm => if (s.readReg rs2).toInt ≤ (s.readReg rs1).toInt then some (s.pc + imm) else none
  | .bltu rs1 rs2 imm => if (s.readReg rs1).toNat < (s.readReg rs2).toNat then some (s.pc + imm) else none
  | .bgeu rs1 rs2 imm => if (s.readReg rs2).toNat ≤ (s.readReg rs1).toNat then some (s.pc + imm) else none
  | .add _ _ _ | .sub _ _ _ | .sll _ _ _ | .slt _ _ _ | .sltu _ _ _ | .xor _ _ _ | .srl _ _ _ | .sra _ _ _ | .or _ _ _ | .and _ _ _ => none
  | .addi _ _ _ | .slti _ _ _ | .sltiu _ _ _ | .xori _ _ _ | .ori _ _ _ | .andi _ _ _ => none
  | .slli _ _ _ | .srli _ _ _ | .srai _ _ _ => none
  | .lb _ _ _ | .lh _ _ _ | .lw _ _ _ | .lbu _ _ _ | .lhu _ _ _ => none
  | .sb _ _ _ | .sh _ _ _ | .sw _ _ _ => none
  | .lui _ _ | .auipc _ _ => none
  | .ecall | .ebreak | .systemOther _ | .halt => none

end Sys2Proof

namespace Sys2Proof.Machine

/-- The ten known opcodes (R43). -/
def knownOpcodes : List (BitVec 7) :=
  [0b0110011#7, 0b0010011#7, 0b0000011#7, 0b0100011#7, 0b1100111#7, 0b1100011#7, 0b0110111#7, 0b0010111#7, 0b1101111#7,
    0b1110011#7]

/-! Frames. -/

/-- Every register reads as before. -/
def SameRegs (s t : State) : Prop := ∀ r, t.readReg r = s.readReg r

/-- Memory is as before: every address reads as before, and the storage itself is the same. -/
def SameMemory (s t : State) : Prop := (∀ a, t.byteAt a = s.byteAt a) ∧ t.mem = s.mem

/-- The bus record is as before. -/
def SameBus (s t : State) : Prop := t.busAddr = s.busAddr ∧ t.busData = s.busData ∧ t.busCtrl = s.busCtrl

/-- The bus record describes a transaction at `a` that moved `data` (R35, R36). -/
def BusShows (t : State) (a data : Word) : Prop := t.busAddr = a ∧ t.busData = data ∧ t.busCtrl = .idle

/-- The reports and the capacity are as before. -/
def SameReports (s t : State) : Prop := t.reports = s.reports ∧ t.capacity = s.capacity

/-- `x[rd] <- v` and no other register: nothing at all where `rd` is x0 (R10, R11). -/
def RegWritten (s t : State) (rd : RegIdx) (v : Word) : Prop :=
  ∀ r, t.readReg r = if r = rd ∧ rd ≠ 0#5 then v else s.readReg r

/-- An instruction that only writes `v` to `rd`, with the pc going to `pc`: everything else is unchanged. -/
def WritesRegister (s : State) (o : Host.Outcome State Fault Refusal) (rd : RegIdx) (v pc : Word) : Prop :=
  ∃ t, o = .next t ∧ RegWritten s t rd v ∧ t.pc = pc ∧ t.status = s.status ∧ SameMemory s t ∧ SameBus s t ∧
    SameReports s t ∧ t.freeCount = s.freeCount

/-- An instruction that only sends the pc to `pc`. -/
def OnlyMovesPc (s : State) (o : Host.Outcome State Fault Refusal) (pc : Word) : Prop :=
  ∃ t, o = .next t ∧ SameRegs s t ∧ t.pc = pc ∧ t.status = s.status ∧ SameMemory s t ∧ SameBus s t ∧
    SameReports s t ∧ t.freeCount = s.freeCount

/-- A halt: only the status changes (R127, R131). -/
def OnlyHalts (s : State) (o : Host.Outcome State Fault Refusal) (c : HaltCause) : Prop :=
  ∃ t, o = .next t ∧ t.status = .halted c ∧ t.pc = s.pc ∧ SameRegs s t ∧ SameMemory s t ∧ SameBus s t ∧
    SameReports s t ∧ t.freeCount = s.freeCount

/-- A load that reads `data` at `a` and writes `v` to `rd`. -/
def Loads (s : State) (o : Host.Outcome State Fault Refusal) (a data : Word) (rd : RegIdx) (v : Word) : Prop :=
  ∃ t, o = .next t ∧ RegWritten s t rd v ∧ t.pc = s.pc + 4#32 ∧ t.status = s.status ∧ SameMemory s t ∧
    BusShows t a data ∧ SameReports s t ∧ t.freeCount = s.freeCount

/-- The storage cell an address names: the byte of RAM or VIDEO, or the peripheral slot it shares with its three
neighbours; none where nothing is stored (R25, R26). -/
def storageCell (a : Word) : Option Nat :=
  match resolve a with
  | some .ram => some a.toNat
  | some .video => some a.toNat
  | some .reserved => none
  | some .peripheral => some (slotCell a)
  | none => none

/-- What address `b` reads after the byte writes `ws`, in order: the last one that names its cell (R26, R29). -/
def afterWrites (s : State) (b : Word) (ws : List (Word × Byte)) : Option Byte :=
  ws.foldl (fun r w => if storageCell b ≠ none ∧ storageCell w.1 = storageCell b then some w.2 else r) (s.byteAt b)

/-- The byte writes of a store of the low `n` bytes of `v` at `a`, in increasing address order (R29). -/
def storeBytes (a v : Word) : Width → List (Word × Byte)
  | .byte => [(a, v.extractLsb' 0 8)]
  | .half => [(a, v.extractLsb' 0 8), (a + 1#32, v.extractLsb' 8 8)]
  | .word => [(a, v.extractLsb' 0 8), (a + 1#32, v.extractLsb' 8 8), (a + 2#32, v.extractLsb' 16 8),
      (a + 3#32, v.extractLsb' 24 8)]

/-- A store of the byte writes `ws` whose transaction shows `data` at `a`. -/
def Stores (s : State) (o : Host.Outcome State Fault Refusal) (a data : Word) (ws : List (Word × Byte)) : Prop :=
  ∃ t, o = .next t ∧ SameRegs s t ∧ t.pc = s.pc + 4#32 ∧ t.status = s.status ∧
    (∀ b, t.byteAt b = afterWrites s b ws) ∧ BusShows t a data ∧ SameReports s t ∧ t.freeCount = s.freeCount

/-- A fault of a data access at `a`: the status records the cause, the pc and the registers stay, and the byte writes
`ws` have been done (R29, R105, R131). -/
def AccessFaults (s : State) (o : Host.Outcome State Fault Refusal) (a : Word) (f : FaultCause)
    (ws : List (Word × Byte)) : Prop :=
  ∃ t, o = .next t ∧ t.status = .faulted f ∧ t.pc = s.pc ∧ SameRegs s t ∧ (∀ b, t.byteAt b = afterWrites s b ws) ∧
    t.busAddr = a ∧ SameReports s t

/-- The number a byte of memory holds; 0 where no region is. -/
def State.byteNat (s : State) (a : Word) : Nat :=
  match s.byteAt a with
  | some b => b.toNat
  | none => 0

/-- The part of the state a program's result depends on and that is not the bus record or the reports (R17). -/
def SameProgramState (s t : State) : Prop :=
  t.regs = s.regs ∧ t.pc = s.pc ∧ t.status = s.status ∧ t.mem = s.mem ∧ t.capacity = s.capacity

/-- Both steps end alike, and in next states that are alike under `R`. -/
def OutcomesAlike (R : State → State → Prop) :
    Host.Outcome State Fault Refusal → Host.Outcome State Fault Refusal → Prop
  | .next s, .next t => R s t
  | .fault a, .fault b => a = b
  | .refused a, .refused b => a = b
  | _, _ => False

/-- A machine whose next step fetches: Running, with a capacity the spec defines, and not at the end of the space
(R61, R62). -/
def Fetching (s : State) : Prop :=
  s.status = .running ∧ Config.minCapacity ≤ s.capacity ∧ s.pc.toNat + 3 < s.capacity

/-- The four bytes at the pc are those of the word `w` (R30). -/
def AtPc (s : State) (w : Word) : Prop :=
  s.byteAt s.pc = some (w.extractLsb' 0 8) ∧ s.byteAt (s.pc + 1#32) = some (w.extractLsb' 8 8) ∧
    s.byteAt (s.pc + 2#32) = some (w.extractLsb' 16 8) ∧ s.byteAt (s.pc + 3#32) = some (w.extractLsb' 24 8)

end Sys2Proof.Machine
end

