-- ==== Sys2Proof/Certificates/Slice0/Obligations.lean ====
section
/-! DEFINITION. The statements for the provers. Each is about every state its hypotheses admit; the values at reset that
the model names (log 1 to 5, 7) stand in `ResetState` and `ResetMeetsInvariant` alone. -/

open Sys2Proof Sys2Proof.Machine

/-! Encoding and decoding. -/

/-- 30_encoding.md R44 to R53: no bit of a well-formed instruction's encoding is dropped. That the zero word is an encoding
the decoder reads, the constructor `halt`, is the model's choice (R56 tests it before decode; log 20). -/
def Obligations.DecodeOfEncodeIsTheInstruction : Prop :=
  ∀ i : Instr, i.wellFormed = true → decodeWord (encode i) = .ok i

/-- 30_encoding.md R52 (the round trip of the source): whatever decodes is well-formed, and its encoding is the word. The
zero word is among them by the model's choice (R56; log 20). -/
def Obligations.EncodeOfDecodeIsTheWord : Prop :=
  ∀ (w : Word) (i : Instr), decodeWord w = .ok i → i.wellFormed = true ∧ encode i = w

/-- 30_encoding.md R53 to R57 with spec/opcode_table.json: a word is an instruction exactly when it is of some row, and
then it is of its own instruction's row. The numbers of the rows are the spec's general-knowledge passages G1 to G3
(PRESUMED, log 21); that the reserved function codes are in no row's reach is decision D6 (log 12). That the row HALT is
decoded, not tested before decode (R56), is the model's choice (log 20), and so is rejecting function codes at decode, not
in execute (R65, log 18). -/
def Obligations.DecoderAcceptsExactlyTheOpcodeTable : Prop :=
  ∀ w : Word, ((∃ i, decodeWord w = .ok i) ↔ ∃ r ∈ opcodeTable, r.accepts w) ∧
    ∀ i, decodeWord w = .ok i → i.row ∈ opcodeTable ∧ i.row.accepts w

/-- Twelve words that the spec writes out with the instruction each stands for, the zero word, and two words that fault.
95_test_vectors.md S1: the first four, BEQ +16, LUI and JAL; S2: BEQ -2; 43_loads_stores.md R97: LW;
44_control_transfer.md R107: JALR; 2.7: ECALL, the other SYSTEM word and the unknown opcode; 41_alu_register.md R81 and
2.1: the unlisted register function. That the zero word decodes to `halt` is the model's choice (DESIGN CHOICE, log 20):
30_encoding.md R56 does not decode it, the step tests it first. So are the two names of rejections, and that the decoder
gives the second (DESIGN CHOICE, log 18): 40_step_cycle.md R65 puts the check of the function codes in execute. The
function codes, the field positions outside the R format and LUI's opcode are the spec's general-knowledge passages G1 to
G3 (PRESUMED, log 21). -/
def Obligations.WordsOfTheSpecDecodeAsNamed : Prop :=
  decodeWord 0x00530333#32 = .ok (.add 6 6 5) ∧ decodeWord 0xFFF38393#32 = .ok (.addi 7 7 0xFFFFFFFF#32) ∧
  decodeWord 0x41F55293#32 = .ok (.srai 5 10 31) ∧ decodeWord 0xFE208FA3#32 = .ok (.sb 1 2 0xFFFFFFFF#32) ∧
  decodeWord 0x0080A183#32 = .ok (.lw 3 1 8#32) ∧ decodeWord 0x00038863#32 = .ok (.beq 7 0 16#32) ∧
  decodeWord 0xFE000FE3#32 = .ok (.beq 0 0 0xFFFFFFFE#32) ∧ decodeWord 0x123452B7#32 = .ok (.lui 5 0x12345000#32) ∧
  decodeWord 0xFF5FF06F#32 = .ok (.jal 0 0xFFFFFFF4#32) ∧ decodeWord 0x004280E7#32 = .ok (.jalr 1 5 4#32) ∧
  decodeWord 0x00000073#32 = .ok .ecall ∧ decodeWord 0x000000F3#32 = .ok (.systemOther 0x000000F3#32) ∧
  decodeWord 0x00000000#32 = .ok .halt ∧ decodeWord 0x0FF0000F#32 = .error .unknownOpcode ∧
  decodeWord 0x022081B3#32 = .error .reservedRegisterFunction

/-- 30_encoding.md R45, R47 to R50 in numbers (the property S2 of the source): the immediate of each format is its field,
less 2^n when bit 31 of the word is set; the U immediate is the word's upper 20 bits in place. -/
def Obligations.ImmediatesAreTheSignedFields : Prop :=
  ∀ w : Word,
    (immI w).toInt = (w.toNat / 2 ^ 20 : Nat) - (w.toNat / 2 ^ 31 * 2 ^ 12 : Nat) ∧
    (immS w).toInt = (w.toNat / 2 ^ 25 * 2 ^ 5 + w.toNat / 2 ^ 7 % 2 ^ 5 : Nat) - (w.toNat / 2 ^ 31 * 2 ^ 12 : Nat) ∧
    (immB w).toInt = (w.toNat / 2 ^ 31 * 2 ^ 12 + w.toNat / 2 ^ 7 % 2 * 2 ^ 11 + w.toNat / 2 ^ 25 % 2 ^ 6 * 2 ^ 5 +
      w.toNat / 2 ^ 8 % 2 ^ 4 * 2 : Nat) - (w.toNat / 2 ^ 31 * 2 ^ 13 : Nat) ∧
    (immU w).toNat = w.toNat / 2 ^ 12 * 2 ^ 12 ∧
    (immJ w).toInt = (w.toNat / 2 ^ 31 * 2 ^ 20 + w.toNat / 2 ^ 12 % 2 ^ 8 * 2 ^ 12 + w.toNat / 2 ^ 20 % 2 * 2 ^ 11 +
      w.toNat / 2 ^ 21 % 2 ^ 10 * 2 : Nat) - (w.toNat / 2 ^ 31 * 2 ^ 21 : Nat)

/-- 20_memory.md R30, 30_encoding.md R42: the four bytes of a word, lowest address first, decode as the word does and
leave the bytes after them. -/
def Obligations.BytesOfAWordDecodeAsTheWord : Prop :=
  ∀ (w : Word) (rest : List Byte),
    decodeBytes (bytesOfWord w ++ rest) = (decodeWord w).map (fun i => (i, rest)) ∧
    decodeTableWord 32 w.toNat = (decodeWord w).toOption

/-- 30_encoding.md R43 to R50: the encodings of the loads, stores, JALR, branches and JAL, bit by bit, for every register
and every immediate field (positions and function codes: G1, G2, log 21). -/
def Obligations.LoadStoreAndTransferEncodingsDecode : Prop :=
  ∀ (rd rs1 rs2 : RegIdx) (f : BitVec 12) (g : BitVec 20),
    let imm := f.signExtend 32
    let even12 := (f ++ 0#1 : BitVec 13).signExtend 32
    let even20 := (g ++ 0#1 : BitVec 21).signExtend 32
    let iWord (funct3 : BitVec 3) (op : BitVec 7) : Word := f ++ rs1 ++ funct3 ++ rd ++ op
    let sWord (funct3 : BitVec 3) : Word :=
      f.extractLsb' 5 7 ++ rs2 ++ rs1 ++ funct3 ++ f.extractLsb' 0 5 ++ 0b0100011#7
    let bWord (funct3 : BitVec 3) : Word :=
      f.extractLsb' 11 1 ++ f.extractLsb' 4 6 ++ rs2 ++ rs1 ++ funct3 ++ f.extractLsb' 0 4 ++ f.extractLsb' 10 1 ++
        0b1100011#7
    let jWord : Word :=
      g.extractLsb' 19 1 ++ g.extractLsb' 0 10 ++ g.extractLsb' 10 1 ++ g.extractLsb' 11 8 ++ rd ++ 0b1101111#7
    decodeWord (iWord 0b000#3 0b0000011#7) = .ok (.lb rd rs1 imm) ∧
    decodeWord (iWord 0b001#3 0b0000011#7) = .ok (.lh rd rs1 imm) ∧
    decodeWord (iWord 0b010#3 0b0000011#7) = .ok (.lw rd rs1 imm) ∧
    decodeWord (iWord 0b100#3 0b0000011#7) = .ok (.lbu rd rs1 imm) ∧
    decodeWord (iWord 0b101#3 0b0000011#7) = .ok (.lhu rd rs1 imm) ∧
    decodeWord (sWord 0b000#3) = .ok (.sb rs1 rs2 imm) ∧
    decodeWord (sWord 0b001#3) = .ok (.sh rs1 rs2 imm) ∧
    decodeWord (sWord 0b010#3) = .ok (.sw rs1 rs2 imm) ∧
    decodeWord (iWord 0b000#3 0b1100111#7) = .ok (.jalr rd rs1 imm) ∧
    decodeWord (bWord 0b000#3) = .ok (.beq rs1 rs2 even12) ∧
    decodeWord (bWord 0b001#3) = .ok (.bne rs1 rs2 even12) ∧
    decodeWord (bWord 0b100#3) = .ok (.blt rs1 rs2 even12) ∧
    decodeWord (bWord 0b101#3) = .ok (.bge rs1 rs2 even12) ∧
    decodeWord (bWord 0b110#3) = .ok (.bltu rs1 rs2 even12) ∧
    decodeWord (bWord 0b111#3) = .ok (.bgeu rs1 rs2 even12) ∧
    decodeWord jWord = .ok (.jal rd even20)

/-- 30_encoding.md R54. -/
def Obligations.UnknownOpcodeFaults : Prop :=
  ((List.range 128).countP fun n => decide (BitVec.ofNat 7 n ∉ knownOpcodes)) = 118 ∧
  ∀ w : Word, (decodeWord w = .error .unknownOpcode ↔ w ≠ 0#32 ∧ fieldOpcode w ∉ knownOpcodes) ∧
    ∀ s, Fetching s → AtPc s w → w ≠ 0#32 → fieldOpcode w ∉ knownOpcodes →
      ∃ t, step s = .next t ∧ t.status = .faulted (.illegalInstruction w)

/-- 41_alu_register.md R81: a word of opcode 0110011 whose function codes are not among the ten. Which ten pairs of numbers
those are is the spec's general-knowledge passage G1 (PRESUMED, log 21). -/
def Obligations.UnlistedRegisterFunctionFaults : Prop :=
  ∀ (w : Word) (s : State), Fetching s → AtPc s w → fieldOpcode w = 0b0110011#7 →
    ¬(fieldFunct7 w = 0b0000000#7) →
    ¬(fieldFunct7 w = 0b0100000#7 ∧ (fieldFunct3 w = 0b000#3 ∨ fieldFunct3 w = 0b101#3)) →
      ∃ t, step s = .next t ∧ t.status = .faulted (.illegalInstruction w) ∧ t.pc = s.pc ∧ SameRegs s t ∧ SameMemory s t

/-- 30_encoding.md R55 outside the R format (R93, R100, R104, R107, R114): decision D6 of the spec, log 12. Which codes are
the reserved ones follows from G1 and G2 (PRESUMED, log 21). -/
def Obligations.ReservedFunctionCodesFault : Prop :=
  ∀ (w : Word) (s : State), Fetching s → AtPc s w →
    ((fieldOpcode w = 0b0010011#7 ∧ fieldFunct3 w = 0b001#3 ∧ fieldFunct7 w ≠ 0b0000000#7) ∨
     (fieldOpcode w = 0b0010011#7 ∧ fieldFunct3 w = 0b101#3 ∧ fieldFunct7 w ≠ 0b0000000#7 ∧ fieldFunct7 w ≠ 0b0100000#7) ∨
     (fieldOpcode w = 0b0000011#7 ∧ (fieldFunct3 w = 0b011#3 ∨ fieldFunct3 w = 0b110#3 ∨ fieldFunct3 w = 0b111#3)) ∨
     (fieldOpcode w = 0b0100011#7 ∧ 0b011#3 ≤ fieldFunct3 w) ∨
     (fieldOpcode w = 0b1100011#7 ∧ (fieldFunct3 w = 0b010#3 ∨ fieldFunct3 w = 0b011#3)) ∨
     (fieldOpcode w = 0b1100111#7 ∧ fieldFunct3 w ≠ 0b000#3)) →
      ∃ t, step s = .next t ∧ t.status = .faulted (.illegalInstruction w) ∧ t.pc = s.pc ∧ SameRegs s t ∧ SameMemory s t

/-! Register-register and register-immediate instructions: encoding, result, completion and frame. -/

/-- 41_alu_register.md R71, R72. The function codes of the encodings are the spec's general-knowledge passage G1 (PRESUMED,
log 21). -/
def Obligations.AddAndSub : Prop :=
  ∀ (rd rs1 rs2 : RegIdx) (s : State),
    let a := s.readReg rs1
    let b := s.readReg rs2
    decodeWord (0b0000000#7 ++ rs2 ++ rs1 ++ 0b000#3 ++ rd ++ 0b0110011#7 : Word) = .ok (.add rd rs1 rs2) ∧
    WritesRegister s (exec (.add rd rs1 rs2) s) rd (u32 (a.toNat + b.toNat)) (s.pc + 4#32) ∧
    decodeWord (0b0100000#7 ++ rs2 ++ rs1 ++ 0b000#3 ++ rd ++ 0b0110011#7 : Word) = .ok (.sub rd rs1 rs2) ∧
    WritesRegister s (exec (.sub rd rs1 rs2) s) rd (u32 (a.toNat - b.toNat)) (s.pc + 4#32)

/-- 41_alu_register.md R76, R79, R80. The function codes of the encodings are the spec's general-knowledge passage G1 (PRESUMED,
log 21). -/
def Obligations.XorOrAnd : Prop :=
  ∀ (rd rs1 rs2 : RegIdx) (s : State),
    let a := s.readReg rs1
    let b := s.readReg rs2
    decodeWord (0b0000000#7 ++ rs2 ++ rs1 ++ 0b100#3 ++ rd ++ 0b0110011#7 : Word) = .ok (.xor rd rs1 rs2) ∧
    WritesRegister s (exec (.xor rd rs1 rs2) s) rd (a ^^^ b) (s.pc + 4#32) ∧
    decodeWord (0b0000000#7 ++ rs2 ++ rs1 ++ 0b110#3 ++ rd ++ 0b0110011#7 : Word) = .ok (.or rd rs1 rs2) ∧
    WritesRegister s (exec (.or rd rs1 rs2) s) rd (a ||| b) (s.pc + 4#32) ∧
    decodeWord (0b0000000#7 ++ rs2 ++ rs1 ++ 0b111#3 ++ rd ++ 0b0110011#7 : Word) = .ok (.and rd rs1 rs2) ∧
    WritesRegister s (exec (.and rd rs1 rs2) s) rd (a &&& b) (s.pc + 4#32)

/-- 41_alu_register.md R73, R77, R78: the amount is the low 5 bits, and SRA rounds toward minus infinity. That SRL masks its
amount as the other two do is DEDUCED (log 26, N25). The function codes of the encodings are the spec's general-knowledge
passage G1 (PRESUMED, log 21). -/
def Obligations.RegisterShifts : Prop :=
  ∀ (rd rs1 rs2 : RegIdx) (s : State),
    let a := s.readReg rs1
    let k := (s.readReg rs2).toNat % 32
    decodeWord (0b0000000#7 ++ rs2 ++ rs1 ++ 0b001#3 ++ rd ++ 0b0110011#7 : Word) = .ok (.sll rd rs1 rs2) ∧
    WritesRegister s (exec (.sll rd rs1 rs2) s) rd (u32 (a.toNat * 2 ^ k : Nat)) (s.pc + 4#32) ∧
    decodeWord (0b0000000#7 ++ rs2 ++ rs1 ++ 0b101#3 ++ rd ++ 0b0110011#7 : Word) = .ok (.srl rd rs1 rs2) ∧
    WritesRegister s (exec (.srl rd rs1 rs2) s) rd (u32 (a.toNat / 2 ^ k : Nat)) (s.pc + 4#32) ∧
    decodeWord (0b0100000#7 ++ rs2 ++ rs1 ++ 0b101#3 ++ rd ++ 0b0110011#7 : Word) = .ok (.sra rd rs1 rs2) ∧
    WritesRegister s (exec (.sra rd rs1 rs2) s) rd (u32 (a.toInt.fdiv (2 ^ k))) (s.pc + 4#32)

/-- 41_alu_register.md R74, R75. The function codes of the encodings are the spec's general-knowledge passage G1 (PRESUMED,
log 21). -/
def Obligations.RegisterComparisons : Prop :=
  ∀ (rd rs1 rs2 : RegIdx) (s : State),
    let a := s.readReg rs1
    let b := s.readReg rs2
    decodeWord (0b0000000#7 ++ rs2 ++ rs1 ++ 0b010#3 ++ rd ++ 0b0110011#7 : Word) = .ok (.slt rd rs1 rs2) ∧
    WritesRegister s (exec (.slt rd rs1 rs2) s) rd (if a.toInt < b.toInt then 1#32 else 0#32) (s.pc + 4#32) ∧
    decodeWord (0b0000000#7 ++ rs2 ++ rs1 ++ 0b011#3 ++ rd ++ 0b0110011#7 : Word) = .ok (.sltu rd rs1 rs2) ∧
    WritesRegister s (exec (.sltu rd rs1 rs2) s) rd (if a.toNat < b.toNat then 1#32 else 0#32) (s.pc + 4#32)

/-- 42_alu_immediate.md R84, R87 to R89: the immediate is the field `f` sign-extended. The function codes and
field positions of the encodings are the spec's general-knowledge passages G1 and G2 (PRESUMED, log 21). -/
def Obligations.ImmediateArithmeticAndLogic : Prop :=
  ∀ (rd rs1 : RegIdx) (f : BitVec 12) (s : State),
    let a := s.readReg rs1
    let imm := f.signExtend 32
    decodeWord (f ++ rs1 ++ 0b000#3 ++ rd ++ 0b0010011#7 : Word) = .ok (.addi rd rs1 imm) ∧
    WritesRegister s (exec (.addi rd rs1 imm) s) rd (u32 (a.toNat + f.toInt)) (s.pc + 4#32) ∧
    decodeWord (f ++ rs1 ++ 0b100#3 ++ rd ++ 0b0010011#7 : Word) = .ok (.xori rd rs1 imm) ∧
    WritesRegister s (exec (.xori rd rs1 imm) s) rd (a ^^^ u32 f.toInt) (s.pc + 4#32) ∧
    decodeWord (f ++ rs1 ++ 0b110#3 ++ rd ++ 0b0010011#7 : Word) = .ok (.ori rd rs1 imm) ∧
    WritesRegister s (exec (.ori rd rs1 imm) s) rd (a ||| u32 f.toInt) (s.pc + 4#32) ∧
    decodeWord (f ++ rs1 ++ 0b111#3 ++ rd ++ 0b0010011#7 : Word) = .ok (.andi rd rs1 imm) ∧
    WritesRegister s (exec (.andi rd rs1 imm) s) rd (a &&& u32 f.toInt) (s.pc + 4#32)

/-- 42_alu_immediate.md R85. The function codes and
field positions of the encodings are the spec's general-knowledge passages G1 and G2 (PRESUMED, log 21). -/
def Obligations.SltiComparesSigned : Prop :=
  ∀ (rd rs1 : RegIdx) (f : BitVec 12) (s : State),
    decodeWord (f ++ rs1 ++ 0b010#3 ++ rd ++ 0b0010011#7 : Word) = .ok (.slti rd rs1 (f.signExtend 32)) ∧
    WritesRegister s (exec (.slti rd rs1 (f.signExtend 32)) s) rd
      (if (s.readReg rs1).toInt < f.toInt then 1#32 else 0#32) (s.pc + 4#32)

/-- 42_alu_immediate.md R86; that the sign-extended immediate is compared as unsigned is decision D15 of the spec
(log 13): the field's negative values stand for 2^32 less their size. The function code and field positions of the
encoding are the spec's general-knowledge passages G1 and G2 (PRESUMED, log 21). -/
def Obligations.SltiuComparesTheSignExtensionUnsigned : Prop :=
  ∀ (rd rs1 : RegIdx) (f : BitVec 12) (s : State),
    decodeWord (f ++ rs1 ++ 0b011#3 ++ rd ++ 0b0010011#7 : Word) = .ok (.sltiu rd rs1 (f.signExtend 32)) ∧
    WritesRegister s (exec (.sltiu rd rs1 (f.signExtend 32)) s) rd
      (if ((s.readReg rs1).toNat : Int) < (if f.toInt < 0 then 2 ^ 32 + f.toInt else f.toInt) then 1#32 else 0#32)
      (s.pc + 4#32)

/-- 42_alu_immediate.md R90 to R92. Their exception clauses are decision D6 and stand in ReservedFunctionCodesFault. The
function codes and field positions of the encodings are the spec's general-knowledge passages G1 and G2 (PRESUMED,
log 21). -/
def Obligations.ImmediateShifts : Prop :=
  ∀ (rd rs1 : RegIdx) (shamt : BitVec 5) (s : State),
    let a := s.readReg rs1
    decodeWord (0b0000000#7 ++ shamt ++ rs1 ++ 0b001#3 ++ rd ++ 0b0010011#7 : Word) = .ok (.slli rd rs1 shamt) ∧
    WritesRegister s (exec (.slli rd rs1 shamt) s) rd (u32 (a.toNat * 2 ^ shamt.toNat : Nat)) (s.pc + 4#32) ∧
    decodeWord (0b0000000#7 ++ shamt ++ rs1 ++ 0b101#3 ++ rd ++ 0b0010011#7 : Word) = .ok (.srli rd rs1 shamt) ∧
    WritesRegister s (exec (.srli rd rs1 shamt) s) rd (u32 (a.toNat / 2 ^ shamt.toNat : Nat)) (s.pc + 4#32) ∧
    decodeWord (0b0100000#7 ++ shamt ++ rs1 ++ 0b101#3 ++ rd ++ 0b0010011#7 : Word) = .ok (.srai rd rs1 shamt) ∧
    WritesRegister s (exec (.srai rd rs1 shamt) s) rd (u32 (a.toInt.fdiv (2 ^ shamt.toNat))) (s.pc + 4#32)

/-- 45_upper_immediate.md R117, R118: LUI writes the field in its place, AUIPC adds it to its own pc. Which of the two opcodes
is LUI's is the spec's general-knowledge passage G3, and where rd stands G2 (PRESUMED, log 21). -/
def Obligations.LuiAndAuipc : Prop :=
  ∀ (rd : RegIdx) (f : BitVec 20) (s : State),
    decodeWord (f ++ rd ++ 0b0110111#7 : Word) = .ok (.lui rd (f ++ 0#12)) ∧
    WritesRegister s (exec (.lui rd (f ++ 0#12)) s) rd (u32 (f.toNat * 2 ^ 12 : Nat)) (s.pc + 4#32) ∧
    decodeWord (f ++ rd ++ 0b0010111#7 : Word) = .ok (.auipc rd (f ++ 0#12)) ∧
    WritesRegister s (exec (.auipc rd (f ++ 0#12)) s) rd (u32 (s.pc.toNat + f.toNat * 2 ^ 12 : Nat)) (s.pc + 4#32)

/-! Loads and stores. -/

/-- 43_loads_stores.md R95 to R99 where every byte of the access has a region. The address sum wraps modulo 2^32 by
decision D5 of the spec (log 11). A byte is read by the model's read of one byte; the datum is little-endian. -/
def Obligations.LoadsReadMemory : Prop :=
  ∀ (rd rs1 : RegIdx) (imm : Word) (s : State), Config.minCapacity ≤ s.capacity →
    let a := s.readReg rs1 + imm
    let b0 : Nat := s.byteNat a
    let h : Nat := b0 + 2 ^ 8 * s.byteNat (a + 1#32)
    let w : Nat := h + 2 ^ 16 * s.byteNat (a + 2#32) + 2 ^ 24 * s.byteNat (a + 3#32)
    (a.toNat + 1 ≤ 0xA0000 →
      Loads s (exec (.lb rd rs1 imm) s) a (u32 b0) rd (u32 (if b0 < 2 ^ 7 then (b0 : Int) else b0 - 2 ^ 8)) ∧
      Loads s (exec (.lbu rd rs1 imm) s) a (u32 b0) rd (u32 b0)) ∧
    (a.toNat + 2 ≤ 0xA0000 →
      Loads s (exec (.lh rd rs1 imm) s) a (u32 h) rd (u32 (if h < 2 ^ 15 then (h : Int) else h - 2 ^ 16)) ∧
      Loads s (exec (.lhu rd rs1 imm) s) a (u32 h) rd (u32 h)) ∧
    (a.toNat + 4 ≤ 0xA0000 → Loads s (exec (.lw rd rs1 imm) s) a (u32 w) rd (u32 w))

/-- 43_loads_stores.md R105, 60_exceptions.md R125: where the loads fault, with which address, and that nothing but the
status and the bus record changes. The comparison of the pre-check is decision D2, the recorded address and the pc D12
(log 9, log 14). -/
def Obligations.LoadsOutOfBoundsFault : Prop :=
  ∀ (rd rs1 : RegIdx) (imm : Word) (s : State),
    let a := s.readReg rs1 + imm
    let firstBad := u32 (max a.toNat 0xA0000 : Nat)
    (0xA0000 ≤ a.toNat →
      AccessFaults s (exec (.lb rd rs1 imm) s) a (.outOfBounds a) [] ∧
      AccessFaults s (exec (.lbu rd rs1 imm) s) a (.outOfBounds a) []) ∧
    (s.capacity ≤ a.toNat + 1 →
      AccessFaults s (exec (.lh rd rs1 imm) s) a (.outOfBounds a) [] ∧
      AccessFaults s (exec (.lhu rd rs1 imm) s) a (.outOfBounds a) []) ∧
    (a.toNat + 1 < s.capacity → 0xA0000 ≤ a.toNat + 1 →
      AccessFaults s (exec (.lh rd rs1 imm) s) a (.outOfBounds firstBad) [] ∧
      AccessFaults s (exec (.lhu rd rs1 imm) s) a (.outOfBounds firstBad) []) ∧
    (s.capacity ≤ a.toNat + 3 → AccessFaults s (exec (.lw rd rs1 imm) s) a (.outOfBounds a) []) ∧
    (a.toNat + 3 < s.capacity → 0xA0000 ≤ a.toNat + 3 →
      AccessFaults s (exec (.lw rd rs1 imm) s) a (.outOfBounds firstBad) [])

/-- 43_loads_stores.md R101 to R103 where every byte of the access has a region: the bytes are written in increasing
address order, each by its own region (20_memory.md R26, R29), and every other address reads as before. The address sum
wraps by decision D5 (log 11), the bus record's datum is decision D14 (log 17). -/
def Obligations.StoresWriteMemory : Prop :=
  ∀ (rs1 rs2 : RegIdx) (imm : Word) (s : State), Inv s →
    let a := s.readReg rs1 + imm
    let v := s.readReg rs2
    (a.toNat + 1 ≤ 0xA0000 →
      Stores s (exec (.sb rs1 rs2 imm) s) a (u32 (v.toNat % 2 ^ 8 : Nat)) (storeBytes a v .byte)) ∧
    (a.toNat + 2 ≤ 0xA0000 →
      Stores s (exec (.sh rs1 rs2 imm) s) a (u32 (v.toNat % 2 ^ 16 : Nat)) (storeBytes a v .half)) ∧
    (a.toNat + 4 ≤ 0xA0000 → Stores s (exec (.sw rs1 rs2 imm) s) a v (storeBytes a v .word))

/-- 20_memory.md R27, 43_loads_stores.md R105: a store that fails its pre-check, and a byte store with no region, write
nothing. The comparison is decision D2 (log 9). -/
def Obligations.StoresFailingBeforeTheFirstByte : Prop :=
  ∀ (rs1 rs2 : RegIdx) (imm : Word) (s : State),
    let a := s.readReg rs1 + imm
    (0xA0000 ≤ a.toNat → AccessFaults s (exec (.sb rs1 rs2 imm) s) a (.outOfBounds a) []) ∧
    (s.capacity ≤ a.toNat + 1 → AccessFaults s (exec (.sh rs1 rs2 imm) s) a (.outOfBounds a) []) ∧
    (s.capacity ≤ a.toNat + 3 → AccessFaults s (exec (.sw rs1 rs2 imm) s) a (.outOfBounds a) [])

/-- 20_memory.md R29: a store that passes the pre-check and meets a byte with no region keeps the bytes before it. That
the fault names that byte is decision D12 (log 14). -/
def Obligations.StoresFailingAtAByteKeepTheBytesBefore : Prop :=
  ∀ (rs1 rs2 : RegIdx) (imm : Word) (s : State), Inv s →
    let a := s.readReg rs1 + imm
    let v := s.readReg rs2
    let firstBad := u32 (max a.toNat 0xA0000 : Nat)
    (a.toNat + 1 < s.capacity → 0xA0000 ≤ a.toNat + 1 →
      AccessFaults s (exec (.sh rs1 rs2 imm) s) a (.outOfBounds firstBad)
        ((storeBytes a v .half).take (0xA0000 - a.toNat))) ∧
    (a.toNat + 3 < s.capacity → 0xA0000 ≤ a.toNat + 3 →
      AccessFaults s (exec (.sw rs1 rs2 imm) s) a (.outOfBounds firstBad)
        ((storeBytes a v .word).take (0xA0000 - a.toNat)))

/-! Regions and storage. -/

/-- 20_memory.md R24: every address is in exactly one region or in none, by its value; a byte access to one in none
fails whatever the capacity. -/
def Obligations.EveryAddressHasOneRegionOrNone : Prop :=
  ∀ a : Word,
    (resolve a = some .ram ↔ a.toNat ≤ 0x7FFFF) ∧
    (resolve a = some .video ↔ 0x80000 ≤ a.toNat ∧ a.toNat ≤ 0x8FFFF) ∧
    (resolve a = some .reserved ↔ 0x90000 ≤ a.toNat ∧ a.toNat ≤ 0x9FBFF) ∧
    (resolve a = some .peripheral ↔ 0x9FC00 ≤ a.toNat ∧ a.toNat ≤ 0x9FFFF) ∧
    (resolve a = none ↔ 0xA0000 ≤ a.toNat) ∧
    (resolve a = none → ∀ capacity m v, memRead capacity m a .byte = .error (.outOfBounds a) ∧
      memWrite capacity m a .byte v = (m, some (.outOfBounds a)))

/-- 20_memory.md R30 with 90_conflicts.md C2: what the word accessor writes in RAM or VIDEO, at any alignment, it reads
back, through the host's accessors and through SW followed by LW. -/
def Obligations.RamAndVideoWordsReadBack : Prop :=
  ∀ (a v : Word) (s : State), Inv s → a.toNat ≤ 0x8FFFC →
    (∃ t, s.writeWord a v = (t, none) ∧ t.hostRead a .word = .ok v) ∧
    ∀ (rd rs1 rs2 : RegIdx) (imm : Word), s.readReg rs1 + imm = a → s.readReg rs2 = v →
      ∃ t u, exec (.sw rs1 rs2 imm) s = .next t ∧ exec (.lw rd rs1 imm) t = .next u ∧ RegWritten s u rd v

/-- 20_memory.md R33, for every slot: what a word and a halfword load inside it give, what a word store at it and a
halfword store at any address inside it leave, and where the bytes of a word or halfword store that straddles it and the
next slot end. That a slot holds one byte is decision D13 (log 8). -/
def Obligations.PeripheralSlotsKeepTheLastByte : Prop :=
  ∀ (k : Nat) (v : Word) (s : State), Inv s → k < 256 →
    let a := u32 (0x9FC00 + 4 * k : Nat)
    (∀ t : State, Inv t → t.hostRead a .word = .ok (u32 (t.byteNat a * 0x01010101 : Nat)) ∧
      ∀ j ≤ 2, t.hostRead (a + BitVec.ofNat 32 j) .half = .ok (u32 (t.byteNat a * 0x0101 : Nat))) ∧
    (∃ t, s.writeWord a v = (t, none) ∧ t.byteNat a = v.toNat / 2 ^ 24 ∧
      t.hostRead a .word = .ok (u32 (v.toNat / 2 ^ 24 * 0x01010101 : Nat))) ∧
    (∀ j ≤ 2, ∃ t, s.hostWrite (a + BitVec.ofNat 32 j) .half v = (t, none) ∧ t.byteNat a = v.toNat / 2 ^ 8 % 2 ^ 8 ∧
      ∀ i ≤ 2, t.hostRead (a + BitVec.ofNat 32 i) .half = .ok (u32 (v.toNat / 2 ^ 8 % 2 ^ 8 * 0x0101 : Nat))) ∧
    (k < 255 →
      (∀ j, 1 ≤ j → j ≤ 3 → ∃ t, s.writeWord (a + BitVec.ofNat 32 j) v = (t, none) ∧
        t.byteNat a = v.toNat / 2 ^ (8 * (3 - j)) % 2 ^ 8 ∧ t.byteNat (a + 4#32) = v.toNat / 2 ^ 24) ∧
      (∃ t, s.hostWrite (a + 3#32) .half v = (t, none) ∧ t.byteNat a = v.toNat % 2 ^ 8 ∧
        t.byteNat (a + 4#32) = v.toNat / 2 ^ 8 % 2 ^ 8))

/-- 20_memory.md R26, R34 (the property S5 of the source): an access wholly inside the reserved region reads 0 or changes
nothing. -/
def Obligations.ReservedRegionIsADeadZone : Prop :=
  ∀ (a v : Word) (n : Width) (s : State), Config.minCapacity ≤ s.capacity → 0x90000 ≤ a.toNat →
    a.toNat + n.bytes ≤ 0x9FC00 → s.hostWrite a n v = (s, none) ∧ s.hostRead a n = .ok 0#32

/-- 70_reset_and_hazards.md R141: the loader puts word `i` at address `4i`, each word reads back, and nothing but the storage
of the image changes. How a program comes to be loaded is outside the machine (log 23). -/
def Obligations.LoadedProgramIsInPlace : Prop :=
  ∀ (ws : List Word) (s : State), Inv s → 4 * ws.length ≤ 0x90000 →
    ∃ t, s.loadProgram ws = (t, none) ∧ SameRegs s t ∧ t.pc = s.pc ∧ t.status = s.status ∧ SameBus s t ∧
      SameReports s t ∧ t.freeCount = s.freeCount ∧
      (∀ (i : Nat) (h : i < ws.length), t.hostRead (BitVec.ofNat 32 (4 * i)) .word = .ok ws[i]) ∧
      ∀ a : Word, 4 * ws.length ≤ a.toNat → t.byteAt a = s.byteAt a

/-! Control transfer. -/

/-- 44_control_transfer.md R108 to R113: a branch writes no register and sends the pc to the target or past itself. The
target wraps modulo 2^32 by decision D4 of the spec (log 10). -/
def Obligations.BranchesJumpOrFallThrough : Prop :=
  ∀ (rs1 rs2 : RegIdx) (imm : Word) (s : State),
    let a := s.readReg rs1
    let b := s.readReg rs2
    let target := u32 (s.pc.toNat + imm.toInt)
    let next := s.pc + 4#32
    OnlyMovesPc s (exec (.beq rs1 rs2 imm) s) (if a = b then target else next) ∧
    OnlyMovesPc s (exec (.bne rs1 rs2 imm) s) (if a = b then next else target) ∧
    OnlyMovesPc s (exec (.blt rs1 rs2 imm) s) (if a.toInt < b.toInt then target else next) ∧
    OnlyMovesPc s (exec (.bge rs1 rs2 imm) s) (if b.toInt ≤ a.toInt then target else next) ∧
    OnlyMovesPc s (exec (.bltu rs1 rs2 imm) s) (if a.toNat < b.toNat then target else next) ∧
    OnlyMovesPc s (exec (.bgeu rs1 rs2 imm) s) (if b.toNat ≤ a.toNat then target else next)

/-- 44_control_transfer.md R107, R115: the link is the old pc plus 4, JALR's target comes from the old `x[rs1]` (also when
rd is rs1) with bit 0 cleared. The sums wrap modulo 2^32 by decision D4 of the spec (log 10). -/
def Obligations.JumpsLinkAndJump : Prop :=
  ∀ (rd rs1 : RegIdx) (imm : Word) (s : State),
    WritesRegister s (exec (.jal rd imm) s) rd (s.pc + 4#32) (u32 (s.pc.toNat + imm.toInt)) ∧
    WritesRegister s (exec (.jalr rd rs1 imm) s) rd (s.pc + 4#32)
      (u32 (2 * (((s.readReg rs1).toNat + imm.toNat) % 2 ^ 32 / 2) : Nat))

/-- 40_step_cycle.md R69 with R66: an instruction that completes writes the pc once, by its jump or by the advance; one
that halts or faults not at all (90_conflicts.md C8; the pc then is D10 and D12, log 14; the wrap is D4, log 10). -/
def Obligations.PcIsWrittenOnce : Prop :=
  ∀ (i : Instr) (s : State), s.status = .running → ∃ t, exec i s = .next t ∧
    (t.status = .running → t.pc = (i.jumpTarget s).getD (s.pc + 4#32)) ∧ (t.status ≠ .running → t.pc = s.pc)

/-! System instructions. -/

/-- 46_system.md R119, R120: ECALL and EBREAK halt with their own causes and change nothing else. That the pc stays is
decision D10 of the spec (log 14). -/
def Obligations.EcallAndEbreakHalt : Prop :=
  decodeWord 0x00000073#32 = .ok .ecall ∧ decodeWord 0x00100073#32 = .ok .ebreak ∧
  ∀ s : State, OnlyHalts s (exec .ecall s) .ecall ∧ OnlyHalts s (exec .ebreak s) .ebreak

/-- 46_system.md R121: every other SYSTEM word is a no-op that reports. That the report is kept in the state is the
model's choice, which D22 allows (log 19). -/
def Obligations.OtherSystemWordsReportAndContinue : Prop :=
  ∀ (w : Word) (s : State), fieldOpcode w = 0b1110011#7 → w ≠ 0x00000073#32 → w ≠ 0x00100073#32 →
    decodeWord w = .ok (.systemOther w) ∧
    ∃ t, exec (.systemOther w) s = .next t ∧ SameRegs s t ∧ SameMemory s t ∧ t.status = s.status ∧ t.pc = s.pc + 4#32 ∧
      SameBus s t ∧ t.capacity = s.capacity ∧ t.freeCount = s.freeCount ∧
      t.reports = s.reports ++ [.unrecognizedSystem w]

/-- 40_step_cycle.md R64, 46_system.md R122: the zero word, and only it, ends the run with ZeroWord; nothing but the status
changes after the fetch (the cause of its own name and the pc are decision D10, log 14; the constructor `halt` is log 20).
A word with opcode 0000000 and another bit set faults (R64, 30_encoding.md R54). The reserved region holds zero words at
every address (20_memory.md R34). -/
def Obligations.ZeroWordHalts : Prop :=
  (∀ s : State, OnlyHalts s (exec .halt s) .zeroWord) ∧
  (∀ (w : Word) (s : State), Fetching s → AtPc s w →
    ((∃ t, step s = .next t ∧ t.status = .halted .zeroWord) ↔ w = 0#32) ∧
    (w = 0#32 → OnlyHalts (s.busDone s.pc 0#32) (step s) .zeroWord) ∧
    (w ≠ 0#32 → fieldOpcode w = 0b0000000#7 → ∃ t, step s = .next t ∧ t.status = .faulted (.illegalInstruction w))) ∧
  ∀ s : State, 0x90000 ≤ s.pc.toNat → s.pc.toNat + 3 ≤ 0x9FBFF → AtPc s 0#32

/-! The step. -/

/-- 40_step_cycle.md R61, R63, R65, R66: when the bytes at the pc are a word that decodes, the step is that instruction
on the state after the fetch's bus transaction. The zero word is among them as `halt`, the model's choice (R64, log 20). -/
def Obligations.StepRunsTheDecodedInstruction : Prop :=
  ∀ (w : Word) (i : Instr) (s : State), Fetching s → AtPc s w → decodeWord w = .ok i →
    step s = exec i (s.busDone s.pc w)

/-- 40_step_cycle.md R62: the end-of-space halt, before any bus transaction. The comparison is decision D3 (log 9). -/
def Obligations.EndOfSpaceHalts : Prop :=
  ∀ s : State, s.status = .running → Config.minCapacity ≤ s.capacity → s.capacity ≤ s.pc.toNat + 3 →
    OnlyHalts s (step s) .endOfSpace

/-- 40_step_cycle.md R63: a fetch that passes the end-of-space test and meets a byte with no region faults with that
byte's address. That the pc stays and the address is recorded is decision D12 (log 14). -/
def Obligations.FetchWithoutRegionFaults : Prop :=
  ∀ s : State, Fetching s → 0xA0000 ≤ s.pc.toNat + 3 →
    AccessFaults s (step s) s.pc (.outOfBounds (u32 (max s.pc.toNat 0xA0000 : Nat))) []

/-- 60_exceptions.md R132, 40_step_cycle.md R67: Halted and Faulted absorb. A step in either is decision D11 (log 15). -/
def Obligations.HaltedAndFaultedAbsorb : Prop :=
  ∀ (k : Nat) (s : State), Config.minCapacity ≤ s.capacity → s.status ≠ .running →
    step s = .next s ∧ run k s = .next s

/-- 40_step_cycle.md R67, R61: a run of no steps is the state, a run of a Running machine is its step and then the shorter
run, and a run of a machine that is not Running is the state (D11, log 15; the fuel is D20, log 27). Every run from a state
that meets the invariant answers a state that meets it, with the same capacity and with the old reports before the new
ones (log 19). -/
def Obligations.RunStepsWhileRunning : Prop :=
  (∀ s : State, run 0 s = .next s) ∧
  (∀ (k : Nat) (s t : State), s.status = .running → step s = .next t → run (k + 1) s = run k t) ∧
  (∀ (k : Nat) (s : State), s.status ≠ .running → run k s = .next s) ∧
  ∀ (k : Nat) (s : State), Inv s → ∃ t, run k s = .next t ∧ Inv t ∧ t.capacity = s.capacity ∧
    s.reports <+: t.reports

/-- 60_exceptions.md R124: no step ends outside the run status; the one refusal is of a machine below the capacity the
spec defines (D1, U8, log 1), and no instruction is refused. -/
def Obligations.EveryStepAnswersAState : Prop :=
  (∀ (i : Instr) (s : State), ∃ t, exec i s = .next t) ∧
  ∀ s : State, (Config.minCapacity ≤ s.capacity → ∃ t, step s = .next t) ∧
    (s.capacity < Config.minCapacity → step s = .refused .capacityBelowMinimum)

/-- The invariant of Safety.lean: memory's canonical form, the capacity, and 10_state.md R17's idle bus control line. -/
def Obligations.StepKeepsTheInvariant : Prop :=
  ∀ s : State, Inv s → ∃ t, step s = .next t ∧ Inv t

/-- The invariant holds right after reset, at the capacity and the bytes of storage the model chose (log 1, 4). -/
def Obligations.ResetMeetsInvariant : Prop := Inv State.reset

/-- 10_state.md R22: what reset leaves. x0, the status and the control line are the spec's; pc is decision D8 (log 3);
the capacity, x1 to x31, the bytes of storage and BUS.addr and BUS.data are the model's choice (log 1, 2, 4, 5). That there
is a list of reports, which D22 allows, and that it is empty is the model's choice too (DESIGN CHOICE, log 19). -/
def Obligations.ResetState : Prop :=
  State.reset.status = .running ∧ State.reset.busCtrl = .idle ∧ State.reset.pc = 0#32 ∧
  State.reset.capacity = 0xA0000 ∧ (∀ r, State.reset.readReg r = 0#32) ∧
  (∀ a : Word, State.reset.byteAt a = if a.toNat < 0xA0000 then some 0#8 else none) ∧
  State.reset.busAddr = 0#32 ∧ State.reset.busData = 0#32 ∧ State.reset.reports = []

/-! Rules about every instruction. -/

/-- 10_state.md R10: register 0 reads zero and drops writes, and an instruction whose destination is x0 has every other
effect it has with any other destination. -/
def Obligations.RegisterZeroDropsWrites : Prop :=
  (∀ (s : State) (v : Word), s.readReg 0#5 = 0#32 ∧ s.writeReg 0#5 v = s) ∧
  ∀ (i : Instr) (s : State), ∃ t, exec i s = .next t ∧
    exec (i.withDestination 0#5) s = .next { t with regs := s.regs }

/-- The Write column of the table of 10_state.md R11: no register but the destination changes. -/
def Obligations.OnlyTheDestinationRegisterChanges : Prop :=
  ∀ (i : Instr) (s t : State) (r : RegIdx), exec i s = .next t → i.destination ≠ some r →
    t.readReg r = s.readReg r

/-- 10_state.md R16, R17 and 20_memory.md R23, R37: only the stores change memory, only loads and stores make a bus
transaction, only SYSTEM-other words report (log 19), and no instruction changes the capacity. -/
def Obligations.OnlyTheNamedInstructionsTouchMemoryAndBus : Prop :=
  ∀ (i : Instr) (s t : State), exec i s = .next t →
    (i.isStore = false → SameMemory s t) ∧
    (i.isLoad = false → i.isStore = false → SameBus s t ∧ t.freeCount = s.freeCount) ∧
    t.reports = s.reports ++ i.reportOf ∧ t.capacity = s.capacity

/-- 60_exceptions.md R131: a step that ends the run leaves the pc and the registers, and the reports (log 19) and the
capacity. Memory stays after a halt, after an illegal instruction, and after any end where the capacity is the smallest
one. Of memory after an OutOfBounds end with a larger capacity, where a store may have written bytes before the failing
one (20_memory.md R29), this says nothing: LoadsOutOfBoundsFault, FetchWithoutRegionFaults and
OnlyTheNamedInstructionsTouchMemoryAndBus say that loads, fetches and other instructions leave it, and
StoresFailingBeforeTheFirstByte and StoresFailingAtAByteKeepTheBytesBefore which bytes a store wrote. The pc is decisions
D10 and D12 (log 14). -/
def Obligations.HaltsAndFaultsArePrecise : Prop :=
  ∀ s t : State, Inv s → s.status = .running → step s = .next t → t.status ≠ .running →
    t.pc = s.pc ∧ SameRegs s t ∧ SameReports s t ∧
    ((∀ a, t.status ≠ .faulted (.outOfBounds a)) → SameMemory s t) ∧
    (s.capacity = Config.minCapacity → SameMemory s t)

/-- 10_state.md R17: nothing a program can see depends on the bus record, nor on the reports (log 19) and the counter of
free values (log 7), which are the model's. Two machines that differ only there take alike steps. -/
def Obligations.BusRecordIsNotObservable : Prop :=
  ∀ s s' : State, SameProgramState s s' → OutcomesAlike SameProgramState (step s) (step s')

/-- 20_memory.md R40 with R38: a word stored where the next instruction is fetched is the word that is executed. -/
def Obligations.AStoredWordIsFetchedNext : Prop :=
  ∀ (rs1 rs2 : RegIdx) (imm : Word) (i : Instr) (s : State), Inv s → s.status = .running →
    s.readReg rs1 + imm = s.pc + 4#32 → (s.pc + 4#32).toNat ≤ 0x8FFFC → decodeWord (s.readReg rs2) = .ok i →
      ∃ t, exec (.sw rs1 rs2 imm) s = .next t ∧ t.pc = s.pc + 4#32 ∧
        step t = exec i (t.busDone t.pc (s.readReg rs2))

/-- The interface of the model (log 23): a placed word is the next instruction, from every state. -/
def Obligations.APlacedWordRunsNext : Prop :=
  ∀ (w : Word) (i : Instr) (s : State), s.mem.wf → decodeWord w = .ok i →
    let t := s.withFetchWord 32 w.toNat
    SameRegs s t ∧ step t = exec i (t.busDone t.pc w)

/-! Byte accesses. -/

/-- 20_memory.md R25: a byte read gives the cell its region names, 0 in the reserved region, and fails where no region is;
it has no other bounds test, and the four addresses of a peripheral slot read the same. A read is a function of the
storage, so it changes nothing. Where the cells stand in the one list is the model's layout, and that a slot is one byte
decision D13 (log 8). -/
def Obligations.ReadByteByRegion : Prop :=
  (∀ (a : Word) (capacity : Nat) (m : Memory),
    (a.toNat ≤ 0x8FFFF → memRead capacity m a .byte = .ok ((m.lookup a.toNat).setWidth 32)) ∧
    (0x90000 ≤ a.toNat → a.toNat ≤ 0x9FBFF → memRead capacity m a .byte = .ok 0#32) ∧
    (0x9FC00 ≤ a.toNat → a.toNat ≤ 0x9FFFF →
      memRead capacity m a .byte = .ok ((m.lookup (0x9FC00 + 4 * ((a.toNat - 0x9FC00) / 4))).setWidth 32)) ∧
    (0xA0000 ≤ a.toNat → memRead capacity m a .byte = .error (.outOfBounds a))) ∧
  ∀ (s : State) (k j : Nat), k < 256 → j < 4 →
    s.byteAt (BitVec.ofNat 32 (0x9FC00 + 4 * k + j)) = s.byteAt (BitVec.ofNat 32 (0x9FC00 + 4 * k))

/-- 20_memory.md R26: after a byte write every address reads as before, but the written one, and in the peripheral region
the three that share its slot, reads the byte; a write to the reserved region changes nothing, and one where no region is
fails and changes nothing. That a slot holds one byte is decision D13 (log 8). -/
def Obligations.WriteByteByRegion : Prop :=
  ∀ (a v : Word) (s : State), Inv s →
    (0xA0000 ≤ a.toNat → s.hostWrite a .byte v = (s, some (.outOfBounds a))) ∧
    (0x90000 ≤ a.toNat → a.toNat ≤ 0x9FBFF → s.hostWrite a .byte v = (s, none)) ∧
    (a.toNat ≤ 0x8FFFF → ∃ t, s.hostWrite a .byte v = (t, none) ∧
      ∀ b, t.byteAt b = if b = a then some (v.setWidth 8) else s.byteAt b) ∧
    (0x9FC00 ≤ a.toNat → a.toNat ≤ 0x9FFFF → ∃ t, s.hostWrite a .byte v = (t, none) ∧
      ∀ b, t.byteAt b = if b.toNat / 4 = a.toNat / 4 then some (v.setWidth 8) else s.byteAt b)
end

