-- ==== Sys2Proof/Laws/Encoding.lean ====
section
/-! SUPPORT. The fields of an encoded word (30_encoding.md R44 to R50), and a word from its fields. -/

namespace Sys2Proof

/-! A field of a concatenation: the part on the right is skipped, the part on the left is cut off. -/

/-- Bits that lie wholly in the left part. -/
theorem extract_append_left {m n start len : Nat} (x : BitVec m) (y : BitVec n) (h : n ≤ start) :
    (x ++ y).extractLsb' start len = x.extractLsb' (start - n) len := by
  ext i hi
  simp only [BitVec.getElem_extractLsb', BitVec.getLsbD_append]
  rw [if_neg (by omega)]
  congr 1
  omega

/-- Bits that lie wholly in the right part. -/
theorem extract_append_right {m n start len : Nat} (x : BitVec m) (y : BitVec n) (h : start + len ≤ n) :
    (x ++ y).extractLsb' start len = y.extractLsb' start len := by
  ext i hi
  simp only [BitVec.getElem_extractLsb', BitVec.getLsbD_append]
  rw [if_pos (by omega)]

/-- All the bits of a field. -/
theorem extract_whole {n : Nat} (x : BitVec n) : x.extractLsb' 0 n = x := by
  ext i hi
  simp

/-- Neighbouring fields together are one field. -/
theorem extract_join {n : Nat} (x : BitVec n) (start a b : Nat) :
    (x.extractLsb' (start + b) a ++ x.extractLsb' start b) = x.extractLsb' start (a + b) := by
  ext i hi
  simp only [BitVec.getElem_append, BitVec.getElem_extractLsb']
  split
  · rfl
  · congr 1; omega

section
variable (f7 : BitVec 7) (rs2 rs1 rd : RegIdx) (f3 : BitVec 3) (op : BitVec 7) (imm : Word)

/-! R format and shift subtype. -/

theorem encodeR_opcode : fieldOpcode (encodeR f7 rs2 rs1 f3 rd op) = op := by
  unfold fieldOpcode encodeR; rw [extract_append_right _ _ (by omega), extract_whole]

theorem encodeR_rd : fieldRd (encodeR f7 rs2 rs1 f3 rd op) = rd := by
  unfold fieldRd encodeR
  rw [extract_append_left _ _ (by omega), extract_append_right _ _ (by omega), extract_whole]

theorem encodeR_funct3 : fieldFunct3 (encodeR f7 rs2 rs1 f3 rd op) = f3 := by
  unfold fieldFunct3 encodeR
  rw [extract_append_left _ _ (by omega), extract_append_left _ _ (by omega), extract_append_right _ _ (by omega),
    extract_whole]

theorem encodeR_rs1 : fieldRs1 (encodeR f7 rs2 rs1 f3 rd op) = rs1 := by
  unfold fieldRs1 encodeR
  rw [extract_append_left _ _ (by omega), extract_append_left _ _ (by omega), extract_append_left _ _ (by omega),
    extract_append_right _ _ (by omega), extract_whole]

theorem encodeR_rs2 : fieldRs2 (encodeR f7 rs2 rs1 f3 rd op) = rs2 := by
  unfold fieldRs2 encodeR
  rw [extract_append_left _ _ (by omega), extract_append_left _ _ (by omega), extract_append_left _ _ (by omega),
    extract_append_left _ _ (by omega), extract_append_right _ _ (by omega), extract_whole]

theorem encodeR_funct7 : fieldFunct7 (encodeR f7 rs2 rs1 f3 rd op) = f7 := by
  unfold fieldFunct7 encodeR
  rw [extract_append_left _ _ (by omega), extract_append_left _ _ (by omega), extract_append_left _ _ (by omega),
    extract_append_left _ _ (by omega), extract_append_left _ _ (by omega), extract_whole]

/-! The other formats share the layout of the R format, with parts of the immediate in the places of its fields. -/

theorem encodeI_eq : encodeI imm rs1 f3 rd op =
    encodeR (imm.extractLsb' 5 7) (imm.extractLsb' 0 5) rs1 f3 rd op := by
  unfold encodeI encodeR
  rw [extract_join imm 0 7 5]

theorem encodeS_eq : encodeS imm rs2 rs1 f3 op =
    encodeR (imm.extractLsb' 5 7) rs2 rs1 f3 (imm.extractLsb' 0 5) op := rfl

theorem encodeB_eq : encodeB imm rs2 rs1 f3 op =
    encodeR (imm.extractLsb' 12 1 ++ imm.extractLsb' 5 6) rs2 rs1 f3 (imm.extractLsb' 1 4 ++ imm.extractLsb' 11 1) op := by
  unfold encodeB encodeR
  ext i hi
  simp only [BitVec.getElem_append]
  repeat' split
  all_goals first | rfl | omega

theorem encodeU_opcode : fieldOpcode (encodeU imm rd op) = op := by
  unfold fieldOpcode encodeU; rw [extract_append_right _ _ (by omega), extract_whole]

theorem encodeU_rd : fieldRd (encodeU imm rd op) = rd := by
  unfold fieldRd encodeU
  rw [extract_append_left _ _ (by omega), extract_append_right _ _ (by omega), extract_whole]

theorem encodeJ_opcode : fieldOpcode (encodeJ imm rd op) = op := by
  unfold fieldOpcode encodeJ; rw [extract_append_right _ _ (by omega), extract_whole]

theorem encodeJ_rd : fieldRd (encodeJ imm rd op) = rd := by
  unfold fieldRd encodeJ
  rw [extract_append_left _ _ (by omega), extract_append_right _ _ (by omega), extract_whole]

theorem encodeI_opcode : fieldOpcode (encodeI imm rs1 f3 rd op) = op := by rw [encodeI_eq, encodeR_opcode]
theorem encodeI_rd : fieldRd (encodeI imm rs1 f3 rd op) = rd := by rw [encodeI_eq, encodeR_rd]
theorem encodeI_funct3 : fieldFunct3 (encodeI imm rs1 f3 rd op) = f3 := by rw [encodeI_eq, encodeR_funct3]
theorem encodeI_rs1 : fieldRs1 (encodeI imm rs1 f3 rd op) = rs1 := by rw [encodeI_eq, encodeR_rs1]
theorem encodeS_opcode : fieldOpcode (encodeS imm rs2 rs1 f3 op) = op := by rw [encodeS_eq, encodeR_opcode]
theorem encodeS_funct3 : fieldFunct3 (encodeS imm rs2 rs1 f3 op) = f3 := by rw [encodeS_eq, encodeR_funct3]
theorem encodeS_rs1 : fieldRs1 (encodeS imm rs2 rs1 f3 op) = rs1 := by rw [encodeS_eq, encodeR_rs1]
theorem encodeS_rs2 : fieldRs2 (encodeS imm rs2 rs1 f3 op) = rs2 := by rw [encodeS_eq, encodeR_rs2]
theorem encodeB_opcode : fieldOpcode (encodeB imm rs2 rs1 f3 op) = op := by rw [encodeB_eq, encodeR_opcode]
theorem encodeB_funct3 : fieldFunct3 (encodeB imm rs2 rs1 f3 op) = f3 := by rw [encodeB_eq, encodeR_funct3]
theorem encodeB_rs1 : fieldRs1 (encodeB imm rs2 rs1 f3 op) = rs1 := by rw [encodeB_eq, encodeR_rs1]
theorem encodeB_rs2 : fieldRs2 (encodeB imm rs2 rs1 f3 op) = rs2 := by rw [encodeB_eq, encodeR_rs2]

/-- A word with a known opcode is not the zero word (R56). -/
theorem ne_zero_of_opcode {w : Word} (h : fieldOpcode w = op) (h0 : op ≠ 0#7) : w ≠ 0#32 := by
  rintro rfl
  exact h0 (h.symm.trans rfl)

end

/-! Decoding by opcode (R43, R53). -/

theorem decodeWord_register {w : Word} (h : fieldOpcode w = 0b0110011#7) : decodeWord w = decodeRegister w := by
  unfold decodeWord; rw [if_neg (ne_zero_of_opcode _ h (by decide))]; simp [h]

theorem decodeWord_immediate {w : Word} (h : fieldOpcode w = 0b0010011#7) : decodeWord w = decodeImmediate w := by
  unfold decodeWord; rw [if_neg (ne_zero_of_opcode _ h (by decide))]; simp [h]

theorem decodeWord_load {w : Word} (h : fieldOpcode w = 0b0000011#7) : decodeWord w = decodeLoad w := by
  unfold decodeWord; rw [if_neg (ne_zero_of_opcode _ h (by decide))]; simp [h]

theorem decodeWord_store {w : Word} (h : fieldOpcode w = 0b0100011#7) : decodeWord w = decodeStore w := by
  unfold decodeWord; rw [if_neg (ne_zero_of_opcode _ h (by decide))]; simp [h]

theorem decodeWord_jalr {w : Word} (h : fieldOpcode w = 0b1100111#7) : decodeWord w = decodeJalr w := by
  unfold decodeWord; rw [if_neg (ne_zero_of_opcode _ h (by decide))]; simp [h]

theorem decodeWord_branch {w : Word} (h : fieldOpcode w = 0b1100011#7) : decodeWord w = decodeBranch w := by
  unfold decodeWord; rw [if_neg (ne_zero_of_opcode _ h (by decide))]; simp [h]

theorem decodeWord_lui {w : Word} (h : fieldOpcode w = 0b0110111#7) : decodeWord w = .ok (.lui (fieldRd w) (immU w)) := by
  unfold decodeWord; rw [if_neg (ne_zero_of_opcode _ h (by decide))]; simp [h]

theorem decodeWord_auipc {w : Word} (h : fieldOpcode w = 0b0010111#7) : decodeWord w = .ok (.auipc (fieldRd w) (immU w)) := by
  unfold decodeWord; rw [if_neg (ne_zero_of_opcode _ h (by decide))]; simp [h]

theorem decodeWord_jal {w : Word} (h : fieldOpcode w = 0b1101111#7) : decodeWord w = .ok (.jal (fieldRd w) (immJ w)) := by
  unfold decodeWord; rw [if_neg (ne_zero_of_opcode _ h (by decide))]; simp [h]

theorem decodeWord_system {w : Word} (h : fieldOpcode w = 0b1110011#7) : decodeWord w = .ok (decodeSystem w) := by
  unfold decodeWord; rw [if_neg (ne_zero_of_opcode _ h (by decide))]; simp [h]

/-- A word is its R-format fields. -/
theorem encodeR_fields (w : Word) :
    encodeR (fieldFunct7 w) (fieldRs2 w) (fieldRs1 w) (fieldFunct3 w) (fieldRd w) (fieldOpcode w) = w := by
  unfold encodeR fieldFunct7 fieldRs2 fieldRs1 fieldFunct3 fieldRd fieldOpcode
  rw [extract_join w 20 7 5, extract_join w 15 (7 + 5) 5, extract_join w 12 (7 + 5 + 5) 3,
    extract_join w 7 (7 + 5 + 5 + 3) 5, extract_join w 0 (7 + 5 + 5 + 3 + 5) 7, extract_whole]

/-! Immediates: a value in a format's range is the sign extension of its low bits, and an encoded word holds those. -/

theorem setWidth_eq_extract {n : Nat} (imm : Word) : imm.extractLsb' 0 n = imm.setWidth n := by
  ext i hi; simp

theorem sext12_of_range (imm : Word) (h : imm12Ok imm = true) : (imm.extractLsb' 0 12).signExtend 32 = imm := by
  simp only [imm12Ok, Bool.and_eq_true, decide_eq_true_eq] at h
  apply BitVec.eq_of_toInt_eq
  rw [BitVec.toInt_signExtend_of_le (by omega), setWidth_eq_extract, BitVec.toInt_setWidth]
  rw [BitVec.toInt_eq_toNat_bmod] at h ⊢
  simp only [Int.bmod] at *
  omega

theorem sext13_of_range (imm : Word) (h : -4096 ≤ imm.toInt) (h' : imm.toInt ≤ 4094) :
    (imm.extractLsb' 0 13).signExtend 32 = imm := by
  apply BitVec.eq_of_toInt_eq
  rw [BitVec.toInt_signExtend_of_le (by omega), setWidth_eq_extract, BitVec.toInt_setWidth]
  rw [BitVec.toInt_eq_toNat_bmod] at h h' ⊢
  simp only [Int.bmod] at *
  omega

theorem sext21_of_range (imm : Word) (h : -1048576 ≤ imm.toInt) (h' : imm.toInt ≤ 1048574) :
    (imm.extractLsb' 0 21).signExtend 32 = imm := by
  apply BitVec.eq_of_toInt_eq
  rw [BitVec.toInt_signExtend_of_le (by omega), setWidth_eq_extract, BitVec.toInt_setWidth]
  rw [BitVec.toInt_eq_toNat_bmod] at h h' ⊢
  simp only [Int.bmod] at *
  omega

/-- The lowest bit of an even value. -/
theorem low_bit_of_even (imm : Word) (h : imm.toNat % 2 = 0) : imm.extractLsb' 0 1 = 0#1 := by
  rw [setWidth_eq_extract]
  apply BitVec.eq_of_toNat_eq
  rw [BitVec.toNat_setWidth]
  exact h

/-- The I format keeps an immediate in its range. -/
theorem immI_encodeI (imm : Word) (rs1 : RegIdx) (f3 : BitVec 3) (rd : RegIdx) (op : BitVec 7)
    (h : imm12Ok imm = true) : immI (encodeI imm rs1 f3 rd op) = imm := by
  have : (encodeI imm rs1 f3 rd op).extractLsb' 20 12 = imm.extractLsb' 0 12 := by
    unfold encodeI
    rw [extract_append_left _ _ (by omega), extract_append_left _ _ (by omega), extract_append_left _ _ (by omega),
      extract_append_left _ _ (by omega), extract_whole]
  rw [immI, this, sext12_of_range imm h]

/-- The S format keeps an immediate in its range. -/
theorem immS_encodeS (imm : Word) (rs2 rs1 : RegIdx) (f3 : BitVec 3) (op : BitVec 7) (h : imm12Ok imm = true) :
    immS (encodeS imm rs2 rs1 f3 op) = imm := by
  have e7 := encodeR_funct7 (imm.extractLsb' 5 7) rs2 rs1 (imm.extractLsb' 0 5) f3 op
  have e5 := encodeR_rd (imm.extractLsb' 5 7) rs2 rs1 (imm.extractLsb' 0 5) f3 op
  unfold fieldFunct7 at e7
  unfold fieldRd at e5
  rw [immS, encodeS_eq, e7, e5, extract_join imm 0 7 5, sext12_of_range imm h]

/-- The B format keeps an immediate in its range. -/
theorem immB_encodeB (imm : Word) (rs2 rs1 : RegIdx) (f3 : BitVec 3) (op : BitVec 7) (h : immBOk imm = true) :
    immB (encodeB imm rs2 rs1 f3 op) = imm := by
  simp only [immBOk, Bool.and_eq_true, decide_eq_true_eq] at h
  have e : immB (encodeB imm rs2 rs1 f3 op) = (imm.extractLsb' 0 13).signExtend 32 := by
    unfold immB
    congr 1
    have a : (encodeB imm rs2 rs1 f3 op).extractLsb' 31 1 = imm.extractLsb' 12 1 := by
      unfold encodeB
      iterate 7 rw [extract_append_left _ _ (by omega)]
      rw [extract_whole]
    have b : (encodeB imm rs2 rs1 f3 op).extractLsb' 7 1 = imm.extractLsb' 11 1 := by
      unfold encodeB
      rw [extract_append_left _ _ (by omega), extract_append_right _ _ (by omega), extract_whole]
    have c : (encodeB imm rs2 rs1 f3 op).extractLsb' 25 6 = imm.extractLsb' 5 6 := by
      unfold encodeB
      iterate 6 rw [extract_append_left _ _ (by omega)]
      rw [extract_append_right _ _ (by omega), extract_whole]
    have d : (encodeB imm rs2 rs1 f3 op).extractLsb' 8 4 = imm.extractLsb' 1 4 := by
      unfold encodeB
      iterate 2 rw [extract_append_left _ _ (by omega)]
      rw [extract_append_right _ _ (by omega), extract_whole]
    rw [a, b, c, d, ← low_bit_of_even imm h.2, extract_join imm 11 1 1, extract_join imm 5 2 6, extract_join imm 1 8 4,
      extract_join imm 0 12 1]
  rw [e, sext13_of_range imm h.1.1 h.1.2]

/-- The J format keeps an immediate in its range. -/
theorem immJ_encodeJ (imm : Word) (rd : RegIdx) (op : BitVec 7) (h : immJOk imm = true) :
    immJ (encodeJ imm rd op) = imm := by
  simp only [immJOk, Bool.and_eq_true, decide_eq_true_eq] at h
  have e : immJ (encodeJ imm rd op) = (imm.extractLsb' 0 21).signExtend 32 := by
    unfold immJ
    congr 1
    have a : (encodeJ imm rd op).extractLsb' 31 1 = imm.extractLsb' 20 1 := by
      unfold encodeJ
      iterate 5 rw [extract_append_left _ _ (by omega)]
      rw [extract_whole]
    have b : (encodeJ imm rd op).extractLsb' 12 8 = imm.extractLsb' 12 8 := by
      unfold encodeJ
      iterate 2 rw [extract_append_left _ _ (by omega)]
      rw [extract_append_right _ _ (by omega), extract_whole]
    have c : (encodeJ imm rd op).extractLsb' 20 1 = imm.extractLsb' 11 1 := by
      unfold encodeJ
      iterate 3 rw [extract_append_left _ _ (by omega)]
      rw [extract_append_right _ _ (by omega), extract_whole]
    have d : (encodeJ imm rd op).extractLsb' 21 10 = imm.extractLsb' 1 10 := by
      unfold encodeJ
      iterate 4 rw [extract_append_left _ _ (by omega)]
      rw [extract_append_right _ _ (by omega), extract_whole]
    rw [a, b, c, d, ← low_bit_of_even imm h.2, extract_join imm 12 1 8, extract_join imm 11 9 1, extract_join imm 1 10 10,
      extract_join imm 0 20 1]
  rw [e, sext21_of_range imm h.1.1 h.1.2]

/-- The U format keeps an immediate whose low bits are zero. -/
theorem immU_encodeU (imm : Word) (rd : RegIdx) (op : BitVec 7) (h : immUOk imm = true) :
    immU (encodeU imm rd op) = imm := by
  simp only [immUOk, decide_eq_true_eq] at h
  have low : imm.extractLsb' 0 12 = 0#12 := by
    rw [setWidth_eq_extract]
    exact BitVec.eq_of_toNat_eq (by rw [BitVec.toNat_setWidth]; exact h)
  have split (w : Word) : immU w = w.extractLsb' 12 20 ++ 0#12 := by
    unfold immU
    ext i hi
    rw [BitVec.getElem_and, BitVec.getElem_append]
    have mask (j : Nat) (hj : j < 32) : (0xFFFFF000#32)[j] = decide (12 ≤ j) := by
      revert j; decide
    rw [mask i hi]
    split
    · next x => rw [decide_eq_false (by omega)]; simp
    · next x =>
      rw [decide_eq_true (by omega), Bool.and_true, BitVec.getElem_extractLsb', BitVec.getLsbD_eq_getElem (by omega)]
      congr 1; omega
  have top : (encodeU imm rd op).extractLsb' 12 20 = imm.extractLsb' 12 20 := by
    unfold encodeU
    iterate 2 rw [extract_append_left _ _ (by omega)]
    rw [extract_whole]
  rw [split, top, ← low, extract_join imm 0 20 12]
  exact extract_whole imm

end Sys2Proof
end

