-- ==== Sys2Proof/Laws/Memory.lean ====
section
/-! SUPPORT. The laws of storage: read after write, the canonical form, and what byte accesses do to cells. -/

namespace Sys2Proof.Machine

/-! The list of cells. -/

/-- A cell below every listed cell is not listed. -/
theorem Memory.lookup_of_lt (m : Memory) (a : Nat) (h : ∀ c ∈ m, a < c.1) : m.lookup a = Config.unlistedByte := by
  induction m with
  | nil => rfl
  | cons c m ih =>
    have : c.1 ≠ a := by have := h c (by simp); omega
    simp only [Memory.lookup, this, if_false]
    exact ih fun d hd => h d (by simp [hd])

theorem Memory.lookup_put (m : Memory) (a k : Nat) (b : Byte) (h : ∀ c ∈ m, a < c.1) :
    (Memory.put a b m).lookup k = if k = a then b else m.lookup k := by
  unfold Memory.put
  split
  · next e => subst e; split
              · next e => subst e; exact Memory.lookup_of_lt m k h
              · rfl
  · simp only [Memory.lookup, eq_comm]

/-- Read after write. -/
theorem Memory.lookup_insert (m : Memory) (h : m.wf) (a k : Nat) (b : Byte) :
    (m.insert a b).lookup k = if k = a then b else m.lookup k := by
  induction m with
  | nil => exact Memory.lookup_put [] a k b (by simp)
  | cons c m ih =>
    obtain ⟨hp, hc⟩ := h
    have hlt := (List.pairwise_cons.1 hp).1
    have hm : Memory.wf m := ⟨(List.pairwise_cons.1 hp).2, fun d hd => hc d (by simp [hd])⟩
    simp only [Memory.insert]
    split
    · next hk =>
      refine Memory.lookup_put _ a k b fun d hd => ?_
      rcases List.mem_cons.1 hd with e | hd
      · subst e; exact hk
      · exact lt_trans hk (hlt d hd)
    · split
      · next e =>
        subst e
        rw [Memory.lookup_put m _ k b hlt]
        simp only [Memory.lookup]
        by_cases x : k = c.1
        · simp [x]
        · simp [x, Ne.symm x]
      · simp only [Memory.lookup, ih hm]
        split <;> split <;> simp_all

/-- A cell of the list after a write is the written one or an old one. -/
theorem Memory.mem_insert {m : Memory} {a : Nat} {b : Byte} {c : Host.Cell} (h : c ∈ m.insert a b) :
    (c = (a, b) ∧ b ≠ Config.unlistedByte) ∨ c ∈ m := by
  have put (m : Memory) (h : c ∈ Memory.put a b m) : (c = (a, b) ∧ b ≠ Config.unlistedByte) ∨ c ∈ m := by
    unfold Memory.put at h
    split at h
    · exact .inr h
    · next hb => exact (List.mem_cons.1 h).imp (⟨·, hb⟩) id
  induction m with
  | nil => exact put [] h
  | cons d m ih =>
    simp only [Memory.insert] at h
    split at h
    · exact put _ h
    · split at h
      · exact (put _ h).imp id (List.mem_cons_of_mem _)
      · rcases List.mem_cons.1 h with e | h
        · exact .inr (by simp [e])
        · exact (ih h).imp id (List.mem_cons_of_mem _)

/-- A write of a cell the hardware has keeps the canonical form. -/
theorem Memory.wf_insert (m : Memory) (h : m.wf) (a : Nat) (b : Byte) (ha : isCell a = true) : (m.insert a b).wf := by
  refine ⟨?_, fun c hc => ?_⟩
  · have put (m : Memory) (hp : m.Pairwise (fun c d => c.1 < d.1)) (h : ∀ c ∈ m, a < c.1) :
        (Memory.put a b m).Pairwise (fun c d => c.1 < d.1) := by
      unfold Memory.put
      split
      · exact hp
      · exact List.pairwise_cons.2 ⟨h, hp⟩
    induction m with
    | nil => exact put [] List.Pairwise.nil (by simp)
    | cons c m ih =>
      obtain ⟨hp, hc⟩ := h
      have hlt := (List.pairwise_cons.1 hp).1
      have hpm := (List.pairwise_cons.1 hp).2
      simp only [Memory.insert]
      split
      · next hk =>
        refine put _ hp fun d hd => ?_
        rcases List.mem_cons.1 hd with e | hd
        · subst e; exact hk
        · exact lt_trans hk (hlt d hd)
      · split
        · next e => exact put m hpm (e ▸ hlt)
        · next hk hne =>
          refine List.pairwise_cons.2 ⟨fun d hd => ?_, ih ⟨hpm, fun d hd => hc d (by simp [hd])⟩⟩
          rcases Memory.mem_insert hd with e | hd
          · have : d.1 = a := by rw [e.1]
            have : c.1 < a := by omega
            omega
          · exact hlt d hd
  · rcases Memory.mem_insert hc with e | hm
    · rw [e.1]; exact ⟨e.2, ha⟩
    · exact h.2 c hm

/-- Equal memories are equal data. -/
theorem Memory.ext_of_wf (m m' : Memory) (h : m.wf) (h' : m'.wf) (e : ∀ k, m.lookup k = m'.lookup k) : m = m' := by
  induction m generalizing m' with
  | nil =>
    cases m' with
    | nil => rfl
    | cons c m' =>
      have := e c.1
      simp only [Memory.lookup, if_true] at this
      exact absurd this.symm (h'.2 c (by simp)).1
  | cons c m ih =>
    have hlt := (List.pairwise_cons.1 h.1).1
    have hm : Memory.wf m := ⟨(List.pairwise_cons.1 h.1).2, fun d hd => h.2 d (by simp [hd])⟩
    cases m' with
    | nil =>
      have := e c.1
      simp only [Memory.lookup, if_true] at this
      exact absurd this (h.2 c (by simp)).1
    | cons c' m' =>
      have hlt' := (List.pairwise_cons.1 h'.1).1
      have hm' : Memory.wf m' := ⟨(List.pairwise_cons.1 h'.1).2, fun d hd => h'.2 d (by simp [hd])⟩
      have key : c.1 = c'.1 := by
        rcases Nat.lt_trichotomy c.1 c'.1 with lt | eq | gt
        · have := e c.1
          rw [Memory.lookup_of_lt (c' :: m') c.1 (by
            intro d hd
            rcases List.mem_cons.1 hd with e | hd
            · subst e; exact lt
            · exact lt_trans lt (hlt' d hd))] at this
          simp only [Memory.lookup, if_true] at this
          exact absurd this (h.2 c (by simp)).1
        · exact eq
        · have := e c'.1
          rw [Memory.lookup_of_lt (c :: m) c'.1 (by
            intro d hd
            rcases List.mem_cons.1 hd with e | hd
            · subst e; exact gt
            · exact lt_trans gt (hlt d hd))] at this
          simp only [Memory.lookup, if_true] at this
          exact absurd this.symm (h'.2 c' (by simp)).1
      have val : c.2 = c'.2 := by
        have := e c.1
        simpa [Memory.lookup, key] using this
      have tail : m = m' := by
        refine ih m' hm hm' fun k => ?_
        by_cases hk : k = c.1
        · rw [hk, Memory.lookup_of_lt m _ hlt, key, Memory.lookup_of_lt m' _ hlt']
        · have := e k
          simp only [Memory.lookup] at this
          rwa [if_neg (fun x => hk x.symm), if_neg (fun x => hk (by rw [key]; exact x.symm))] at this
      rw [tail]
      exact congrArg (· :: m') (Prod.ext key val)

/-! Regions and cells. -/

/-- An address has a region exactly when it is below 0xA0000 (R24). -/
theorem resolve_eq_none (a : Word) : resolve a = none ↔ Config.minCapacity ≤ a.toNat := by
  unfold resolve Config.minCapacity Config.ramEnd Config.videoEnd Config.reservedEnd Config.periphEnd
  repeat' split
  all_goals simp; try omega

/-- The region of an address, written out (R24). -/
theorem resolve_cases (a : Word) :
    (resolve a = some .ram ∧ a.toNat ≤ 0x7FFFF) ∨ (resolve a = some .video ∧ 0x80000 ≤ a.toNat ∧ a.toNat ≤ 0x8FFFF) ∨
    (resolve a = some .reserved ∧ 0x90000 ≤ a.toNat ∧ a.toNat ≤ 0x9FBFF) ∨
    (resolve a = some .peripheral ∧ 0x9FC00 ≤ a.toNat ∧ a.toNat ≤ 0x9FFFF) ∨ (resolve a = none ∧ 0xA0000 ≤ a.toNat) := by
  unfold resolve Config.ramEnd Config.videoEnd Config.reservedEnd Config.periphEnd
  repeat' split
  all_goals simp; try omega

/-- The cells there are, written out (R16). -/
theorem isCell_iff (k : Nat) : isCell k = true ↔ k ≤ 0x8FFFF ∨ (0x9FC00 ≤ k ∧ k ≤ 0x9FFFF ∧ k % 4 = 0) := by
  simp only [isCell, Bool.or_eq_true, Bool.and_eq_true, decide_eq_true_eq, and_assoc]
  rfl

/-- The cell of an address is one the hardware has. -/
theorem isCell_of_storageCell {a : Word} {k : Nat} (h : storageCell a = some k) : isCell k = true := by
  unfold storageCell at h
  rcases resolve_cases a with ⟨e, b⟩ | ⟨e, b⟩ | ⟨e, b⟩ | ⟨e, b⟩ | ⟨e, b⟩ <;> simp only [e] at h
  · injection h with h; subst h; exact (isCell_iff _).2 (by omega)
  · injection h with h; subst h; exact (isCell_iff _).2 (by omega)
  · simp at h
  · injection h with h; subst h
    refine (isCell_iff _).2 (.inr ?_)
    unfold slotCell Config.periphBase
    omega
  · simp at h

/-- A byte read is a read of the address's cell; an address with a region and no cell reads 0 (R25). -/
theorem readByte_eq (m : Memory) (a : Word) :
    readByte m a = if resolve a = none then none
      else match storageCell a with
        | some k => some (m.lookup k)
        | none => some 0#8 := by
  unfold readByte storageCell
  cases h : resolve a with
  | none => rfl
  | some r => cases r <;> simp

/-- A byte write is a write of the address's cell; an address with a region and no cell stores nothing (R26). -/
theorem writeByte_eq (m : Memory) (a : Word) (b : Byte) :
    writeByte m a b = if resolve a = none then none
      else match storageCell a with
        | some k => some (m.insert k b)
        | none => some m := by
  unfold writeByte storageCell
  cases h : resolve a with
  | none => rfl
  | some r => cases r <;> simp

/-- A byte write succeeds exactly below 0xA0000 (R26, R24). -/
theorem writeByte_isSome (m : Memory) (a : Word) (b : Byte) (h : a.toNat < Config.minCapacity) :
    ∃ m', writeByte m a b = some m' := by
  have : resolve a ≠ none := fun e => by have := (resolve_eq_none a).1 e; omega
  rw [writeByte_eq, if_neg this]
  split <;> exact ⟨_, rfl⟩

/-- A byte write keeps the canonical form. -/
theorem writeByte_wf {m m' : Memory} {a : Word} {b : Byte} (h : m.wf) (e : writeByte m a b = some m') : m'.wf := by
  rw [writeByte_eq] at e
  split at e
  · simp at e
  · split at e
    · next hk => injection e with e; subst e; exact Memory.wf_insert m h _ b (isCell_of_storageCell hk)
    · injection e with e; subst e; exact h

/-- Read after a byte write: the written byte at every address that names the same cell, the old byte elsewhere
(R25, R26). -/
theorem readByte_writeByte {m m' : Memory} {a : Word} {v : Byte} (h : m.wf) (e : writeByte m a v = some m') (b : Word) :
    readByte m' b = if storageCell b ≠ none ∧ storageCell a = storageCell b then some v else readByte m b := by
  rw [writeByte_eq] at e
  split at e
  · simp at e
  have none_of {c : Word} (hc : resolve c = none) : storageCell c = none := by simp [storageCell, hc]
  cases hb : storageCell b with
  | none =>
    simp only [ne_eq, not_true_eq_false, false_and, if_false, readByte_eq, hb]
  | some kb =>
    have hrb : resolve b ≠ none := fun x => by simp [none_of x] at hb
    simp only [readByte_eq, hb, hrb, if_false]
    cases ha : storageCell a with
    | none => simp only [ha] at e; injection e with e; subst e; simp
    | some ka =>
      simp only [ha] at e; injection e with e; subst e
      rw [Memory.lookup_insert m h]
      by_cases x : ka = kb
      · simp [x]
      · simp [x, Ne.symm x]

/-! Multi-byte accesses. -/

/-- A multi-byte write keeps the canonical form, whether it fails or not. -/
theorem writeBytes_wf (n : Nat) (m : Memory) (a v : Word) (h : m.wf) : (writeBytes m a v n).1.wf := by
  induction n generalizing m a v with
  | zero => exact h
  | succ n ih =>
    unfold writeBytes
    split
    · exact h
    · next e => exact ih _ _ _ (writeByte_wf h e)

/-- Every memory operation keeps the canonical form (a read changes no memory). -/
theorem memWrite_wf (cap : Nat) (m : Memory) (a : Word) (n : Width) (v : Word) (h : m.wf) :
    (memWrite cap m a n v).1.wf := by
  unfold memWrite
  split
  · exact h
  · exact writeBytes_wf _ _ _ _ h

/-- A sum of an address and a small offset that does not wrap. -/
theorem toNat_add_ofNat (a : Word) (k : Nat) (h : a.toNat + k < 2 ^ 32) : (a + BitVec.ofNat 32 k).toNat = a.toNat + k := by
  rw [BitVec.toNat_add, BitVec.toNat_ofNat]; omega

/-- The byte writes of a multi-byte write, one after the other (R29). -/
def byteWrites (a v : Word) : Nat → List (Word × Byte)
  | 0 => []
  | n + 1 => (a, v.setWidth 8) :: byteWrites (a + 1#32) (v >>> 8) n

/-- What an address reads after byte writes: `afterWrites` for a storage instead of a state. -/
def readAfter (m : Memory) (b : Word) (ws : List (Word × Byte)) : Option Byte :=
  ws.foldl (fun r w => if storageCell b ≠ none ∧ storageCell w.1 = storageCell b then some w.2 else r) (readByte m b)

/-- The bytes a store writes are those of its memory call. -/
theorem storeBytes_eq (a v : Word) (n : Width) : storeBytes a v n = byteWrites a v n.bytes := by
  have part (k : Nat) : (v >>> k).setWidth 8 = v.extractLsb' k 8 := by ext i hi; simp
  have low : v.setWidth 8 = v.extractLsb' 0 8 := by ext i hi; simp
  have e2 : a + 1#32 + 1#32 = a + 2#32 := by rw [BitVec.add_assoc]; rfl
  have e3 : a + 2#32 + 1#32 = a + 3#32 := by rw [BitVec.add_assoc]; rfl
  cases n <;>
    simp only [storeBytes, Width.bytes, byteWrites, low, e2, e3, part, ← BitVec.shiftRight_add, Nat.reduceAdd]

/-- A multi-byte write below 0xA0000 completes, and is its byte writes in order (R29). -/
theorem writeBytes_below (n : Nat) (m : Memory) (a v : Word) (hm : m.wf) (h : a.toNat + n ≤ 0xA0000) :
    ∃ m', writeBytes m a v n = (m', none) ∧ m'.wf ∧ ∀ b, readByte m' b = readAfter m b (byteWrites a v n) := by
  induction n generalizing m a v with
  | zero => exact ⟨m, rfl, hm, fun _ => rfl⟩
  | succ n ih =>
    obtain ⟨m1, h1⟩ := writeByte_isSome m a (v.setWidth 8) (by unfold Config.minCapacity; omega)
    have next := toNat_add_ofNat a 1 (by omega)
    obtain ⟨m', e, w, r⟩ := ih m1 (a + 1#32) (v >>> 8) (writeByte_wf hm h1) (by rw [next]; omega)
    refine ⟨m', by rw [writeBytes, h1]; exact e, w, fun b => ?_⟩
    rw [r, readAfter, readAfter, byteWrites, List.foldl_cons, readByte_writeByte hm h1]

/-- A multi-byte write that starts below 0xA0000 and reaches it fails there, with the bytes before it written (R29). -/
theorem writeBytes_reaching (n : Nat) (m : Memory) (a v : Word) (hm : m.wf) (ha : a.toNat ≤ 0xA0000)
    (h : 0xA0000 ≤ a.toNat + n) :
    ∃ m', writeBytes m a v (n + 1) = (m', some (.outOfBounds 0xA0000#32)) ∧ m'.wf ∧
      ∀ b, readByte m' b = readAfter m b (byteWrites a v (0xA0000 - a.toNat)) := by
  have bad (v : Word) (n : Nat) (m : Memory) (hm : m.wf) :
      ∃ m', writeBytes m 0xA0000#32 v (n + 1) = (m', some (.outOfBounds 0xA0000#32)) ∧ m'.wf ∧
        ∀ b, readByte m' b = readAfter m b (byteWrites 0xA0000#32 v (0xA0000 - (0xA0000#32).toNat)) :=
    ⟨m, by rw [writeBytes, writeByte_eq, if_pos ((resolve_eq_none _).2 (by decide))], hm, fun _ => rfl⟩
  induction n generalizing m a v with
  | zero =>
    obtain rfl : a = 0xA0000#32 := BitVec.eq_of_toNat_eq (by simp; omega)
    exact bad v 0 m hm
  | succ n ih =>
    by_cases e : a.toNat = 0xA0000
    · obtain rfl : a = 0xA0000#32 := BitVec.eq_of_toNat_eq (by simp; omega)
      exact bad v (n + 1) m hm
    obtain ⟨m1, h1⟩ := writeByte_isSome m a (v.setWidth 8) (by unfold Config.minCapacity; omega)
    have next := toNat_add_ofNat a 1 (by omega)
    obtain ⟨m', e, w, r⟩ :=
      ih m1 (a + 1#32) (v >>> 8) (writeByte_wf hm h1) (by rw [next]; omega) (by rw [next]; omega)
    refine ⟨m', by rw [writeBytes, h1]; exact e, w, fun b => ?_⟩
    rw [r, next, show 0xA0000 - a.toNat = (0xA0000 - (a.toNat + 1)) + 1 by omega, readAfter, readAfter, byteWrites,
      List.foldl_cons, readByte_writeByte hm h1]

/-- A failed multi-byte write is OutOfBounds (R125). -/
theorem writeBytes_error {n : Nat} {m m' : Memory} {a v : Word} {f : FaultCause}
    (h : writeBytes m a v n = (m', some f)) : ∃ x, f = .outOfBounds x := by
  induction n generalizing m a v with
  | zero => simp [writeBytes] at h
  | succ n ih =>
    unfold writeBytes at h
    split at h
    · simp at h; exact ⟨_, h.2.symm⟩
    · exact ih h

/-- A failed write is OutOfBounds (R125). -/
theorem memWrite_error {c : Nat} {m m' : Memory} {a v : Word} {n : Width} {f : FaultCause}
    (h : memWrite c m a n v = (m', some f)) : ∃ x, f = .outOfBounds x := by
  unfold memWrite at h
  split at h
  · simp at h; exact ⟨_, h.2.symm⟩
  · exact writeBytes_error h

/-- Reset memory has the canonical form. -/
theorem reset_mem_wf : State.reset.mem.wf := by decide

end Sys2Proof.Machine
end

