-- ==== Sys2Proof/Laws/State.lean ====
section
/-! SUPPORT. What each state update leaves of each field, and the register laws. -/

namespace Sys2Proof.Machine

@[simp] theorem State.advancePc_regs (s : State) : (s.advancePc).regs = s.regs := rfl
@[simp] theorem State.advancePc_pc (s : State) : (s.advancePc).pc = s.pc + 4#32 := rfl
@[simp] theorem State.advancePc_status (s : State) : (s.advancePc).status = s.status := rfl
@[simp] theorem State.advancePc_mem (s : State) : (s.advancePc).mem = s.mem := rfl
@[simp] theorem State.advancePc_busAddr (s : State) : (s.advancePc).busAddr = s.busAddr := rfl
@[simp] theorem State.advancePc_busData (s : State) : (s.advancePc).busData = s.busData := rfl
@[simp] theorem State.advancePc_busCtrl (s : State) : (s.advancePc).busCtrl = s.busCtrl := rfl
@[simp] theorem State.advancePc_reports (s : State) : (s.advancePc).reports = s.reports := rfl
@[simp] theorem State.advancePc_capacity (s : State) : (s.advancePc).capacity = s.capacity := rfl
@[simp] theorem State.advancePc_freeCount (s : State) : (s.advancePc).freeCount = s.freeCount := rfl

@[simp] theorem State.jumpTo_regs (s : State) (t : Word) : (s.jumpTo t).regs = s.regs := rfl
@[simp] theorem State.jumpTo_pc (s : State) (t : Word) : (s.jumpTo t).pc = t := rfl
@[simp] theorem State.jumpTo_status (s : State) (t : Word) : (s.jumpTo t).status = s.status := rfl
@[simp] theorem State.jumpTo_mem (s : State) (t : Word) : (s.jumpTo t).mem = s.mem := rfl
@[simp] theorem State.jumpTo_busAddr (s : State) (t : Word) : (s.jumpTo t).busAddr = s.busAddr := rfl
@[simp] theorem State.jumpTo_busData (s : State) (t : Word) : (s.jumpTo t).busData = s.busData := rfl
@[simp] theorem State.jumpTo_busCtrl (s : State) (t : Word) : (s.jumpTo t).busCtrl = s.busCtrl := rfl
@[simp] theorem State.jumpTo_reports (s : State) (t : Word) : (s.jumpTo t).reports = s.reports := rfl
@[simp] theorem State.jumpTo_capacity (s : State) (t : Word) : (s.jumpTo t).capacity = s.capacity := rfl
@[simp] theorem State.jumpTo_freeCount (s : State) (t : Word) : (s.jumpTo t).freeCount = s.freeCount := rfl

@[simp] theorem State.takeFault_regs (s : State) (f : FaultCause) : (s.takeFault f).regs = s.regs := rfl
@[simp] theorem State.takeFault_pc (s : State) (f : FaultCause) : (s.takeFault f).pc = s.pc := rfl
@[simp] theorem State.takeFault_status (s : State) (f : FaultCause) : (s.takeFault f).status = .faulted f := rfl
@[simp] theorem State.takeFault_mem (s : State) (f : FaultCause) : (s.takeFault f).mem = s.mem := rfl
@[simp] theorem State.takeFault_busAddr (s : State) (f : FaultCause) : (s.takeFault f).busAddr = s.busAddr := rfl
@[simp] theorem State.takeFault_busData (s : State) (f : FaultCause) : (s.takeFault f).busData = s.busData := rfl
@[simp] theorem State.takeFault_busCtrl (s : State) (f : FaultCause) : (s.takeFault f).busCtrl = s.busCtrl := rfl
@[simp] theorem State.takeFault_reports (s : State) (f : FaultCause) : (s.takeFault f).reports = s.reports := rfl
@[simp] theorem State.takeFault_capacity (s : State) (f : FaultCause) : (s.takeFault f).capacity = s.capacity := rfl
@[simp] theorem State.takeFault_freeCount (s : State) (f : FaultCause) : (s.takeFault f).freeCount = s.freeCount := rfl

@[simp] theorem State.takeHalt_regs (s : State) (c : HaltCause) : (s.takeHalt c).regs = s.regs := rfl
@[simp] theorem State.takeHalt_pc (s : State) (c : HaltCause) : (s.takeHalt c).pc = s.pc := rfl
@[simp] theorem State.takeHalt_status (s : State) (c : HaltCause) : (s.takeHalt c).status = .halted c := rfl
@[simp] theorem State.takeHalt_mem (s : State) (c : HaltCause) : (s.takeHalt c).mem = s.mem := rfl
@[simp] theorem State.takeHalt_busAddr (s : State) (c : HaltCause) : (s.takeHalt c).busAddr = s.busAddr := rfl
@[simp] theorem State.takeHalt_busData (s : State) (c : HaltCause) : (s.takeHalt c).busData = s.busData := rfl
@[simp] theorem State.takeHalt_busCtrl (s : State) (c : HaltCause) : (s.takeHalt c).busCtrl = s.busCtrl := rfl
@[simp] theorem State.takeHalt_reports (s : State) (c : HaltCause) : (s.takeHalt c).reports = s.reports := rfl
@[simp] theorem State.takeHalt_capacity (s : State) (c : HaltCause) : (s.takeHalt c).capacity = s.capacity := rfl
@[simp] theorem State.takeHalt_freeCount (s : State) (c : HaltCause) : (s.takeHalt c).freeCount = s.freeCount := rfl

@[simp] theorem State.report_regs (s : State) (e : Report) : (s.report e).regs = s.regs := rfl
@[simp] theorem State.report_pc (s : State) (e : Report) : (s.report e).pc = s.pc := rfl
@[simp] theorem State.report_status (s : State) (e : Report) : (s.report e).status = s.status := rfl
@[simp] theorem State.report_mem (s : State) (e : Report) : (s.report e).mem = s.mem := rfl
@[simp] theorem State.report_busAddr (s : State) (e : Report) : (s.report e).busAddr = s.busAddr := rfl
@[simp] theorem State.report_busData (s : State) (e : Report) : (s.report e).busData = s.busData := rfl
@[simp] theorem State.report_busCtrl (s : State) (e : Report) : (s.report e).busCtrl = s.busCtrl := rfl
@[simp] theorem State.report_reports (s : State) (e : Report) : (s.report e).reports = s.reports ++ [e] := rfl
@[simp] theorem State.report_capacity (s : State) (e : Report) : (s.report e).capacity = s.capacity := rfl
@[simp] theorem State.report_freeCount (s : State) (e : Report) : (s.report e).freeCount = s.freeCount := rfl

@[simp] theorem State.busDone_regs (s : State) (a d : Word) : (s.busDone a d).regs = s.regs := rfl
@[simp] theorem State.busDone_pc (s : State) (a d : Word) : (s.busDone a d).pc = s.pc := rfl
@[simp] theorem State.busDone_status (s : State) (a d : Word) : (s.busDone a d).status = s.status := rfl
@[simp] theorem State.busDone_mem (s : State) (a d : Word) : (s.busDone a d).mem = s.mem := rfl
@[simp] theorem State.busDone_busAddr (s : State) (a d : Word) : (s.busDone a d).busAddr = a := rfl
@[simp] theorem State.busDone_busData (s : State) (a d : Word) : (s.busDone a d).busData = d := rfl
@[simp] theorem State.busDone_busCtrl (s : State) (a d : Word) : (s.busDone a d).busCtrl = .idle := rfl
@[simp] theorem State.busDone_reports (s : State) (a d : Word) : (s.busDone a d).reports = s.reports := rfl
@[simp] theorem State.busDone_capacity (s : State) (a d : Word) : (s.busDone a d).capacity = s.capacity := rfl
@[simp] theorem State.busDone_freeCount (s : State) (a d : Word) : (s.busDone a d).freeCount = s.freeCount := rfl

@[simp] theorem State.busFailed_regs (s : State) (a : Word) : (s.busFailed a).regs = s.regs := rfl
@[simp] theorem State.busFailed_pc (s : State) (a : Word) : (s.busFailed a).pc = s.pc := rfl
@[simp] theorem State.busFailed_status (s : State) (a : Word) : (s.busFailed a).status = s.status := rfl
@[simp] theorem State.busFailed_mem (s : State) (a : Word) : (s.busFailed a).mem = s.mem := rfl
@[simp] theorem State.busFailed_busAddr (s : State) (a : Word) : (s.busFailed a).busAddr = a := rfl
@[simp] theorem State.busFailed_busData (s : State) (a : Word) : (s.busFailed a).busData = Config.failedBusData s.freeCount := rfl
@[simp] theorem State.busFailed_busCtrl (s : State) (a : Word) : (s.busFailed a).busCtrl = Config.failedBusCtrl s.freeCount := rfl
@[simp] theorem State.busFailed_reports (s : State) (a : Word) : (s.busFailed a).reports = s.reports := rfl
@[simp] theorem State.busFailed_capacity (s : State) (a : Word) : (s.busFailed a).capacity = s.capacity := rfl
@[simp] theorem State.busFailed_freeCount (s : State) (a : Word) : (s.busFailed a).freeCount = s.freeCount + 1 := rfl

@[simp] theorem State.writeReg_pc (s : State) (r : RegIdx) (v : Word) : (s.writeReg r v).pc = s.pc := by
  unfold State.writeReg; split <;> rfl
@[simp] theorem State.writeReg_status (s : State) (r : RegIdx) (v : Word) : (s.writeReg r v).status = s.status := by
  unfold State.writeReg; split <;> rfl
@[simp] theorem State.writeReg_mem (s : State) (r : RegIdx) (v : Word) : (s.writeReg r v).mem = s.mem := by
  unfold State.writeReg; split <;> rfl
@[simp] theorem State.writeReg_busAddr (s : State) (r : RegIdx) (v : Word) : (s.writeReg r v).busAddr = s.busAddr := by
  unfold State.writeReg; split <;> rfl
@[simp] theorem State.writeReg_busData (s : State) (r : RegIdx) (v : Word) : (s.writeReg r v).busData = s.busData := by
  unfold State.writeReg; split <;> rfl
@[simp] theorem State.writeReg_busCtrl (s : State) (r : RegIdx) (v : Word) : (s.writeReg r v).busCtrl = s.busCtrl := by
  unfold State.writeReg; split <;> rfl
@[simp] theorem State.writeReg_reports (s : State) (r : RegIdx) (v : Word) : (s.writeReg r v).reports = s.reports := by
  unfold State.writeReg; split <;> rfl
@[simp] theorem State.writeReg_capacity (s : State) (r : RegIdx) (v : Word) : (s.writeReg r v).capacity = s.capacity := by
  unfold State.writeReg; split <;> rfl
@[simp] theorem State.writeReg_freeCount (s : State) (r : RegIdx) (v : Word) : (s.writeReg r v).freeCount = s.freeCount := by
  unfold State.writeReg; split <;> rfl

@[simp] theorem State.advancePc_readReg (s : State) (r : RegIdx) : (s.advancePc).readReg r = s.readReg r := rfl
@[simp] theorem State.jumpTo_readReg (s : State) (t : Word) (r : RegIdx) : (s.jumpTo t).readReg r = s.readReg r := rfl
@[simp] theorem State.takeFault_readReg (s : State) (f : FaultCause) (r : RegIdx) : (s.takeFault f).readReg r = s.readReg r := rfl
@[simp] theorem State.takeHalt_readReg (s : State) (c : HaltCause) (r : RegIdx) : (s.takeHalt c).readReg r = s.readReg r := rfl
@[simp] theorem State.report_readReg (s : State) (e : Report) (r : RegIdx) : (s.report e).readReg r = s.readReg r := rfl
@[simp] theorem State.busDone_readReg (s : State) (a d : Word) (r : RegIdx) : (s.busDone a d).readReg r = s.readReg r := rfl
@[simp] theorem State.busFailed_readReg (s : State) (a : Word) (r : RegIdx) : (s.busFailed a).readReg r = s.readReg r := rfl
@[simp] theorem State.withMem_readReg (s : State) (m : Memory) (r : RegIdx) : { s with mem := m }.readReg r = s.readReg r := rfl

/-- Register 0 reads as zero (R10). -/
@[simp] theorem State.readReg_zero (s : State) : s.readReg 0#5 = 0#32 := rfl

/-- A write of register 0 does nothing (R10). -/
@[simp] theorem State.writeReg_zero (s : State) (v : Word) : s.writeReg 0#5 v = s := rfl

/-- Two indices that are not 0 and select the same stored register are the same index. -/
theorem regSlot_inj {r r' : RegIdx} (h : r ≠ 0#5) (h' : r' ≠ 0#5) (e : r.toNat - 1 = r'.toNat - 1) : r = r' := by
  have n (q : RegIdx) (hq : q ≠ 0#5) : q.toNat ≠ 0 := fun e => hq (BitVec.eq_of_toNat_eq (by simpa using e))
  have := n r h
  have := n r' h'
  exact BitVec.eq_of_toNat_eq (by omega)

/-- A register read after a register write (R10, R11). -/
theorem State.readReg_writeReg (s : State) (rd r : RegIdx) (v : Word) :
    (s.writeReg rd v).readReg r = if r = rd ∧ rd ≠ 0#5 then v else s.readReg r := by
  by_cases hd : rd = 0#5
  · subst hd; simp
  by_cases hr : r = 0#5
  · subst hr
    have : ¬(0#5 = rd) := fun e => hd e.symm
    simp [this]
  by_cases e : r = rd
  · subst e; simp [State.writeReg, State.readReg, hr]
  · have ne : rd.toNat - 1 ≠ r.toNat - 1 := fun x => e (regSlot_inj hd hr x).symm
    simp [State.writeReg, State.readReg, hr, hd, e, ne]

end Sys2Proof.Machine
end

