-- ==== Sys2Proof/Laws/Ops.lean ====
section
/-! SUPPORT. What each shared operation can do, said once, and the inversion of the step. -/

namespace Sys2Proof.Machine

/-! Reads and writes of several bytes. -/

/-- Appending bits is multiplication and addition. -/
theorem toNat_append_add {m n : Nat} (x : BitVec m) (y : BitVec n) : (x ++ y).toNat = 2 ^ n * x.toNat + y.toNat := by
  rw [BitVec.toNat_append, ← Nat.shiftLeft_add_eq_or_of_lt y.isLt, Nat.shiftLeft_eq, Nat.mul_comm]

/-- One stage of the little-endian assembly (R28). -/
theorem assemble_toNat (r : Word) (b : Byte) (h : r.toNat < 2 ^ 24) :
    (r <<< 8 ||| b.setWidth 32).toNat = 256 * r.toNat + b.toNat := by
  have hb : b.toNat < 2 ^ 8 := b.isLt
  rw [BitVec.toNat_or, BitVec.toNat_shiftLeft, BitVec.toNat_setWidth, Nat.shiftLeft_eq, Nat.mod_eq_of_lt (by omega),
    Nat.mod_eq_of_lt (by omega), ← Nat.shiftLeft_eq, ← Nat.shiftLeft_add_eq_or_of_lt hb, Nat.shiftLeft_eq]
  omega

/-- One byte read (R28). -/
theorem readBytes_one {m : Memory} {a : Word} {b : Byte} (h : readByte m a = some b) :
    ∃ v, readBytes m a 1 = .ok v ∧ v.toNat = b.toNat := by
  refine ⟨_, by simp only [readBytes, h]; rfl, ?_⟩
  rw [assemble_toNat _ _ (by decide)]
  simp

/-- Two bytes read, little-endian (R28, R30). -/
theorem readBytes_two {m : Memory} {a : Word} {b0 b1 : Byte} (h0 : readByte m a = some b0)
    (h1 : readByte m (a + 1#32) = some b1) :
    ∃ v, readBytes m a 2 = .ok v ∧ v.toNat = b0.toNat + 2 ^ 8 * b1.toNat := by
  obtain ⟨w, hw, ew⟩ := readBytes_one h1
  refine ⟨_, by rw [readBytes]; simp only [h0, hw]; rfl, ?_⟩
  rw [assemble_toNat _ _ (by have := b1.isLt; omega), ew]
  omega

/-- Four bytes read, little-endian (R28, R30). -/
theorem readBytes_four {m : Memory} {a : Word} {b0 b1 b2 b3 : Byte} (h0 : readByte m a = some b0)
    (h1 : readByte m (a + 1#32) = some b1) (h2 : readByte m (a + 2#32) = some b2)
    (h3 : readByte m (a + 3#32) = some b3) :
    ∃ v, readBytes m a 4 = .ok v ∧ v.toNat = b0.toNat + 2 ^ 8 * b1.toNat + 2 ^ 16 * b2.toNat + 2 ^ 24 * b3.toNat := by
  have e2 : a + 1#32 + 1#32 = a + 2#32 := by rw [BitVec.add_assoc]; rfl
  have e3 : a + 2#32 + 1#32 = a + 3#32 := by rw [BitVec.add_assoc]; rfl
  obtain ⟨w, hw, ew⟩ := readBytes_two h2 (e3 ▸ h3)
  have := b1.isLt
  have := b2.isLt
  have := b3.isLt
  have step1 : readBytes m (a + 1#32) 3 = .ok (w <<< 8 ||| b1.setWidth 32) := by
    rw [readBytes]; simp only [h1, e2, hw]
  have n1 : (w <<< 8 ||| b1.setWidth 32).toNat = 256 * w.toNat + b1.toNat := assemble_toNat _ _ (by omega)
  refine ⟨_, by rw [readBytes]; simp only [h0, step1]; rfl, ?_⟩
  rw [assemble_toNat _ _ (by omega), n1, ew]
  omega

/-- The number of a word made of four bytes (R30). -/
theorem wordOfBytes_toNat (b0 b1 b2 b3 : Byte) :
    (wordOfBytes b0 b1 b2 b3).toNat = b0.toNat + 2 ^ 8 * b1.toNat + 2 ^ 16 * b2.toNat + 2 ^ 24 * b3.toNat := by
  unfold wordOfBytes
  rw [toNat_append_add, toNat_append_add, toNat_append_add]
  omega

/-- A multi-byte read that fails names the first byte with no region; the bytes before it have one (R28). -/
theorem readBytes_error {m : Memory} {n : Nat} {a : Word} {f : FaultCause} (h : readBytes m a n = .error f) :
    ∃ k < n, f = .outOfBounds (a + BitVec.ofNat 32 k) ∧ resolve (a + BitVec.ofNat 32 k) = none ∧
      ∀ j < k, resolve (a + BitVec.ofNat 32 j) ≠ none := by
  have region (c : Word) : readByte m c = none ↔ resolve c = none := by
    rw [readByte_eq]; split
    · simp [*]
    · split <;> simp [*]
  induction n generalizing a with
  | zero => simp [readBytes] at h
  | succ n ih =>
    rw [readBytes] at h
    split at h
    · next e =>
      injection h with h
      refine ⟨0, by omega, ?_, ?_, by omega⟩
      · simpa using h.symm
      · simpa using (region a).1 e
    · next b e =>
      split at h
      · next g hg =>
        injection h with h
        subst h
        obtain ⟨k, hk, hf, hr, hb⟩ := ih hg
        have shift (j : Nat) : a + 1#32 + BitVec.ofNat 32 j = a + BitVec.ofNat 32 (j + 1) := by
          rw [BitVec.add_assoc, BitVec.add_comm (1#32), ← BitVec.ofNat_add]
        refine ⟨k + 1, by omega, by rw [← shift]; exact hf, by rw [← shift]; exact hr, fun j hj => ?_⟩
        cases j with
        | zero => intro x; rw [(region a).2 (by simpa using x)] at e; simp at e
        | succ j => rw [← shift]; exact hb j (by omega)
      · simp at h

/-- A failed read is OutOfBounds (R125). -/
theorem memRead_error {c : Nat} {m : Memory} {a : Word} {n : Width} {f : FaultCause}
    (h : memRead c m a n = .error f) : ∃ x, f = .outOfBounds x := by
  unfold memRead at h
  split at h
  · injection h with h; exact ⟨_, h.symm⟩
  · obtain ⟨_, _, e, _⟩ := readBytes_error h; exact ⟨_, e⟩

/-- The fetch reads the word whose bytes stand at the pc (R30, R63). -/
theorem memRead_atPc {s : State} {w : Word} (hf : Fetching s) (h : AtPc s w) :
    memRead s.capacity s.mem s.pc .word = .ok w := by
  obtain ⟨h0, h1, h2, h3⟩ := h
  obtain ⟨v, e, n⟩ := readBytes_four h0 h1 h2 h3
  have same : v = w := by
    apply BitVec.eq_of_toNat_eq
    rw [n]
    simp only [BitVec.extractLsb'_toNat, Nat.shiftRight_eq_div_pow]
    have := w.isLt
    omega
  have passes : preCheckFails s.capacity s.pc .word = false := by
    have := hf.2.2
    simp only [preCheckFails, decide_eq_false_iff_not]
    omega
  rw [memRead, if_neg (by simp [passes]), ← same]
  exact e

/-! The bus. -/

/-- A bus read either gives the datum the memory call gives, or propagates its failure (R35). -/
theorem busRead_cases (a : Word) (n : Width) (s : State) :
    (∃ v, memRead s.capacity s.mem a n = .ok v ∧ busRead a n s = .done v (s.busDone a v)) ∨
    (∃ f, memRead s.capacity s.mem a n = .error f ∧ busRead a n s = .failed f (s.busFailed a)) := by
  unfold busRead
  cases h : memRead s.capacity s.mem a n with
  | ok v => exact .inl ⟨v, rfl, rfl⟩
  | error f => exact .inr ⟨f, rfl, rfl⟩

/-- A bus write either completes, or propagates the failure of the memory call and keeps what it wrote (R36, R29). -/
theorem busWrite_cases (a : Word) (n : Width) (v : Word) (s : State) :
    ∃ m, (memWrite s.capacity s.mem a n v = (m, none) ∧
        busWrite a n v s = .done (n.truncate v) ({ s with mem := m }.busDone a (n.truncate v))) ∨
      (∃ f, memWrite s.capacity s.mem a n v = (m, some f) ∧
        busWrite a n v s = .failed f ({ s with mem := m }.busFailed a)) := by
  unfold busWrite
  rcases h : memWrite s.capacity s.mem a n v with ⟨m, _ | f⟩
  · exact ⟨m, .inl ⟨rfl, rfl⟩⟩
  · exact ⟨m, .inr ⟨f, rfl, rfl⟩⟩

/-! The ends of an instruction. -/

@[simp] theorem complete_fallThrough (s : State) : complete (.fallThrough s) = .next s.advancePc := rfl
@[simp] theorem complete_jumped (s : State) : complete (.jumped s) = .next s := rfl
@[simp] theorem complete_halt (c : HaltCause) (s : State) : complete (.halt c s) = .next (s.takeHalt c) := rfl
@[simp] theorem complete_fault (f : FaultCause) (s : State) : complete (.fault f s) = .next (s.takeFault f) := rfl

/-- What a load does (R94, R105). -/
theorem loadInto_cases (n : Width) (ext : Word → Word) (rd rs1 : RegIdx) (imm : Word) (s : State) :
    (∃ v, memRead s.capacity s.mem (effectiveAddress s rs1 imm) n = .ok v ∧ loadInto n ext rd rs1 imm s =
        .next ((s.busDone (effectiveAddress s rs1 imm) v).writeReg rd (ext v)).advancePc) ∨
    (∃ f, memRead s.capacity s.mem (effectiveAddress s rs1 imm) n = .error f ∧ loadInto n ext rd rs1 imm s =
        .next ((s.busFailed (effectiveAddress s rs1 imm)).takeFault f)) := by
  unfold loadInto
  rcases busRead_cases (effectiveAddress s rs1 imm) n s with ⟨v, h, e⟩ | ⟨f, h, e⟩
  · exact .inl ⟨v, h, by rw [e]; rfl⟩
  · exact .inr ⟨f, h, by rw [e]; rfl⟩

/-- What a store does (R94, R105). -/
theorem storeFrom_cases (n : Width) (rs1 rs2 : RegIdx) (imm : Word) (s : State) :
    ∃ m, (memWrite s.capacity s.mem (effectiveAddress s rs1 imm) n (s.readReg rs2) = (m, none) ∧
        storeFrom n rs1 rs2 imm s = .next ({ s with mem := m }.busDone (effectiveAddress s rs1 imm)
          (n.truncate (s.readReg rs2))).advancePc) ∨
      (∃ f, memWrite s.capacity s.mem (effectiveAddress s rs1 imm) n (s.readReg rs2) = (m, some f) ∧
        storeFrom n rs1 rs2 imm s =
          .next (({ s with mem := m }.busFailed (effectiveAddress s rs1 imm)).takeFault f)) := by
  unfold storeFrom
  obtain ⟨m, ⟨h, e⟩ | ⟨f, h, e⟩⟩ := busWrite_cases (effectiveAddress s rs1 imm) n (s.readReg rs2) s
  · exact ⟨m, .inl ⟨h, by rw [e]; rfl⟩⟩
  · exact ⟨m, .inr ⟨f, h, by rw [e]; rfl⟩⟩

/-- What a branch does (R106). -/
theorem branchIf_eq (taken : Bool) (imm : Word) (s : State) :
    branchIf taken imm s = .next (if taken then s.jumpTo (s.pc + imm) else s.advancePc) := by
  cases taken <;> rfl

/-! The step. -/

/-- All that a step can do (R61). -/
theorem step_cases (s : State) :
    (s.capacity < Config.minCapacity ∧ step s = .refused .capacityBelowMinimum) ∨
    (Config.minCapacity ≤ s.capacity ∧ s.status ≠ .running ∧ step s = .next s) ∨
    (Config.minCapacity ≤ s.capacity ∧ s.status = .running ∧
      ((s.capacity ≤ s.pc.toNat + 3 ∧ step s = .next (s.takeHalt .endOfSpace)) ∨
       (s.pc.toNat + 3 < s.capacity ∧
         ((∃ f, memRead s.capacity s.mem s.pc .word = .error f ∧ step s = .next ((s.busFailed s.pc).takeFault f)) ∨
          (∃ w r, memRead s.capacity s.mem s.pc .word = .ok w ∧ decodeWord w = .error r ∧
            step s = .next ((s.busDone s.pc w).takeFault (.illegalInstruction w))) ∨
          (∃ w i, memRead s.capacity s.mem s.pc .word = .ok w ∧ decodeWord w = .ok i ∧
            step s = exec i (s.busDone s.pc w)))))) := by
  by_cases hc : s.capacity < Config.minCapacity
  · exact .inl ⟨hc, by simp [step, cycle, hc]⟩
  have hc' : Config.minCapacity ≤ s.capacity := by omega
  cases hs : s.status with
  | halted c => exact .inr (.inl ⟨hc', by simp, by simp [step, cycle, hc, hs]⟩)
  | faulted f => exact .inr (.inl ⟨hc', by simp, by simp [step, cycle, hc, hs]⟩)
  | running =>
    have e : step s = runningStep s := by simp [step, cycle, hc, hs]
    refine .inr (.inr ⟨hc', rfl, ?_⟩)
    by_cases he : s.capacity ≤ s.pc.toNat + 3
    · exact .inl ⟨he, by simp [e, runningStep, endOfSpace, he]⟩
    refine .inr ⟨by omega, ?_⟩
    have e' : step s = match fetch s with
        | .failed f s' => complete (.fault f s')
        | .done w s' => runWord w s' := by
      rw [e, runningStep, if_neg (by simpa [endOfSpace] using he)]
      all_goals cases fetch s <;> rfl
    rcases busRead_cases s.pc .word s with ⟨w, h, er⟩ | ⟨f, h, er⟩
    · have e2 : step s = runWord w (s.busDone s.pc w) := by rw [e', fetch, er]
      cases hd : decodeWord w with
      | error r => exact .inr (.inl ⟨w, r, h, hd, by rw [e2, runWord, hd]; rfl⟩)
      | ok i => exact .inr (.inr ⟨w, i, h, hd, by rw [e2, runWord, hd]⟩)
    · exact .inl ⟨f, h, by rw [e', fetch, er]; rfl⟩

/-- What every step of a Running machine keeps, every run keeps (R67). -/
theorem run_keeps {P : State → Prop} (keeps : ∀ s t, P s → s.status = .running → step s = .next t → P t) (k : Nat)
    (s t : State) (hs : P s) (h : run k s = .next t) : P t := by
  induction k generalizing s with
  | zero => cases h; exact hs
  | succ k ih =>
    rw [run] at h
    cases e : s.status with
    | running =>
      simp only [e] at h
      cases e' : step s with
      | next u => simp only [e'] at h; exact ih u (keeps s u hs e e') h
      | fault r => simp only [e'] at h; cases h
      | refused r => simp only [e'] at h; cases h
    | halted c => simp only [e] at h; cases h; exact hs
    | faulted c => simp only [e] at h; cases h; exact hs

end Sys2Proof.Machine
end

