-- ==== Sys2Proof/Laws/Exec.lean ====
section
/-! SUPPORT. All that an instruction can do, said once: the seven shapes of exec. A proof about every instruction takes
these cases and never unfolds a meaning. -/

namespace Sys2Proof.Machine

/-- One result to one register, then the pc advance; the result does not depend on the destination
(R70, R83, R117, R118). -/
def WritesResult (i : Instr) (s : State) : Prop :=
  ∃ rd v, i.destination = some rd ∧ (∀ r, exec (i.withDestination r) s = .next (s.writeReg r v).advancePc) ∧
    i.isLoad = false ∧ i.isStore = false ∧ i.reportOf = [] ∧ i.jumpTarget s = none

/-- JAL and JALR (R107, R115). -/
def LinksAndJumps (i : Instr) (s : State) : Prop :=
  ∃ rd target, i.destination = some rd ∧
    (∀ r, exec (i.withDestination r) s = .next ((s.writeReg r (s.pc + 4#32)).jumpTo target)) ∧
    i.isLoad = false ∧ i.isStore = false ∧ i.reportOf = [] ∧ i.jumpTarget s = some target

/-- The branches (R106). -/
def Branches (i : Instr) (s : State) : Prop :=
  i.destination = none ∧ (∀ r, i.withDestination r = i) ∧ i.isLoad = false ∧ i.isStore = false ∧ i.reportOf = [] ∧
    ((i.jumpTarget s = none ∧ exec i s = .next s.advancePc) ∨
     ∃ target, i.jumpTarget s = some target ∧ exec i s = .next (s.jumpTo target))

/-- The loads (R94 to R99). -/
def IsALoad (i : Instr) : Prop :=
  ∃ n ext rd rs1 imm, i.destination = some rd ∧
    (∀ r s, exec (i.withDestination r) s = loadInto n ext r rs1 imm s) ∧
    i.isLoad = true ∧ i.isStore = false ∧ i.reportOf = [] ∧ ∀ s, i.jumpTarget s = none

/-- The stores (R94, R101 to R103). -/
def IsAStore (i : Instr) : Prop :=
  ∃ n rs1 rs2 imm, i.destination = none ∧ (∀ r, i.withDestination r = i) ∧
    (∀ s, exec i s = storeFrom n rs1 rs2 imm s) ∧
    i.isLoad = false ∧ i.isStore = true ∧ i.reportOf = [] ∧ ∀ s, i.jumpTarget s = none

/-- The halting instructions with their causes (R127). -/
def HaltsWith (i : Instr) (c : HaltCause) : Prop :=
  (i = .ecall ∧ c = .ecall) ∨ (i = .ebreak ∧ c = .ebreak) ∨ (i = .halt ∧ c = .zeroWord)

/-- ECALL, EBREAK and the zero word (R119, R120, R122). -/
def Halts (i : Instr) : Prop :=
  ∃ c, HaltsWith i c ∧ i.destination = none ∧ (∀ r, i.withDestination r = i) ∧
    (∀ s, exec i s = .next (s.takeHalt c)) ∧
    i.isLoad = false ∧ i.isStore = false ∧ i.reportOf = [] ∧ ∀ s, i.jumpTarget s = none

/-- The other SYSTEM words (R121). -/
def OnlyReports (i : Instr) : Prop :=
  ∃ e, i.destination = none ∧ (∀ r, i.withDestination r = i) ∧ (∀ s, exec i s = .next (s.report e).advancePc) ∧
    i.isLoad = false ∧ i.isStore = false ∧ i.reportOf = [e] ∧ ∀ s, i.jumpTarget s = none

/-- A branch's two ends, from its predicate. -/
theorem branches_of {i : Instr} {s : State} {taken : Bool} {imm : Word} (hd : i.destination = none)
    (hw : ∀ r, i.withDestination r = i) (hl : i.isLoad = false) (hs : i.isStore = false) (hr : i.reportOf = [])
    (he : exec i s = branchIf taken imm s) (hj : i.jumpTarget s = if taken then some (s.pc + imm) else none) :
    Branches i s := by
  refine ⟨hd, hw, hl, hs, hr, ?_⟩
  rw [he, hj, branchIf_eq]
  cases taken
  · exact .inl ⟨rfl, rfl⟩
  · exact .inr ⟨_, rfl, rfl⟩

/-- Every instruction has one of the seven shapes. -/
theorem exec_cases (i : Instr) (s : State) :
    WritesResult i s ∨ LinksAndJumps i s ∨ Branches i s ∨ IsALoad i ∨ IsAStore i ∨ Halts i ∨ OnlyReports i := by
  have signed (a b : Word) : ((!lessSigned a b) = true) = (b.toInt ≤ a.toInt) := by
    rw [lessSigned, Bool.not_eq_true', ← Bool.not_eq_true, BitVec.slt_iff_toInt_lt, not_lt]
  have unsigned (a b : Word) : ((!lessUnsigned a b) = true) = (b.toNat ≤ a.toNat) := by
    rw [lessUnsigned, Bool.not_eq_true', ← Bool.not_eq_true, BitVec.ult_iff_toNat_lt, not_lt]
  cases i with
  | add rd _ _ | sub rd _ _ | sll rd _ _ | slt rd _ _ | sltu rd _ _ | xor rd _ _ | srl rd _ _ | sra rd _ _ | or rd _ _
  | and rd _ _ | addi rd _ _ | slti rd _ _ | sltiu rd _ _ | xori rd _ _ | ori rd _ _ | andi rd _ _ | slli rd _ _
  | srli rd _ _ | srai rd _ _ | lui rd _ | auipc rd _ => exact .inl ⟨rd, _, rfl, fun _ => rfl, rfl, rfl, rfl, rfl⟩
  | jal rd _ | jalr rd _ _ => exact .inr (.inl ⟨rd, _, rfl, fun _ => rfl, rfl, rfl, rfl, rfl⟩)
  | beq rs1 rs2 imm => exact .inr (.inr (.inl (branches_of rfl (fun _ => rfl) rfl rfl rfl rfl (by simp [Instr.jumpTarget]))))
  | bne rs1 rs2 imm => exact .inr (.inr (.inl (branches_of rfl (fun _ => rfl) rfl rfl rfl rfl (by simp [Instr.jumpTarget]))))
  | blt rs1 rs2 imm =>
    exact .inr (.inr (.inl (branches_of rfl (fun _ => rfl) rfl rfl rfl rfl
      (by simp [Instr.jumpTarget, lessSigned, BitVec.slt_iff_toInt_lt]))))
  | bge rs1 rs2 imm =>
    exact .inr (.inr (.inl (branches_of rfl (fun _ => rfl) rfl rfl rfl rfl (by simp only [signed]; rfl))))
  | bltu rs1 rs2 imm =>
    exact .inr (.inr (.inl (branches_of rfl (fun _ => rfl) rfl rfl rfl rfl
      (by simp [Instr.jumpTarget, lessUnsigned, BitVec.ult_iff_toNat_lt]))))
  | bgeu rs1 rs2 imm =>
    exact .inr (.inr (.inl (branches_of rfl (fun _ => rfl) rfl rfl rfl rfl (by simp only [unsigned]; rfl))))
  | lb rd _ _ | lh rd _ _ | lw rd _ _ | lbu rd _ _ | lhu rd _ _ =>
    exact .inr (.inr (.inr (.inl ⟨_, _, rd, _, _, rfl, fun _ _ => rfl, rfl, rfl, rfl, fun _ => rfl⟩)))
  | sb _ _ _ | sh _ _ _ | sw _ _ _ =>
    exact .inr (.inr (.inr (.inr (.inl ⟨_, _, _, _, rfl, fun _ => rfl, fun _ => rfl, rfl, rfl, rfl, fun _ => rfl⟩))))
  | ecall =>
    exact .inr (.inr (.inr (.inr (.inr (.inl ⟨_, .inl ⟨rfl, rfl⟩, rfl, fun _ => rfl, fun _ => rfl, rfl, rfl, rfl,
      fun _ => rfl⟩)))))
  | ebreak =>
    exact .inr (.inr (.inr (.inr (.inr (.inl ⟨_, .inr (.inl ⟨rfl, rfl⟩), rfl, fun _ => rfl, fun _ => rfl, rfl, rfl, rfl,
      fun _ => rfl⟩)))))
  | halt =>
    exact .inr (.inr (.inr (.inr (.inr (.inl ⟨_, .inr (.inr ⟨rfl, rfl⟩), rfl, fun _ => rfl, fun _ => rfl, rfl, rfl, rfl,
      fun _ => rfl⟩)))))
  | systemOther w =>
    exact .inr (.inr (.inr (.inr (.inr (.inr ⟨_, rfl, fun _ => rfl, fun _ => rfl, rfl, rfl, rfl, fun _ => rfl⟩)))))

/-- The destination an instruction has is the one it is given. -/
theorem withDestination_destination {i : Instr} {rd : RegIdx} (h : i.destination = some rd) : i.withDestination rd = i := by
  cases i <;> first | (injection h with h; subst h; rfl) | cases h

/-- From a next state back: what the instruction did, and which instruction can have done it (R8, R11). -/
theorem exec_next_cases {i : Instr} {s t : State} (h : exec i s = .next t) :
    (∃ rd v, i.destination = some rd ∧ t = (s.writeReg rd v).advancePc ∧
      i.isLoad = false ∧ i.isStore = false ∧ i.reportOf = [] ∧ i.jumpTarget s = none) ∨
    (∃ rd v target, i.destination = some rd ∧ t = (s.writeReg rd v).jumpTo target ∧
      i.isLoad = false ∧ i.isStore = false ∧ i.reportOf = [] ∧ i.jumpTarget s = some target) ∨
    (t = s.advancePc ∧ i.isLoad = false ∧ i.isStore = false ∧ i.reportOf = [] ∧ i.jumpTarget s = none) ∨
    (∃ target, t = s.jumpTo target ∧
      i.isLoad = false ∧ i.isStore = false ∧ i.reportOf = [] ∧ i.jumpTarget s = some target) ∨
    (∃ rd a v d, i.destination = some rd ∧ t = ((s.busDone a d).writeReg rd v).advancePc ∧
      i.isLoad = true ∧ i.isStore = false ∧ i.reportOf = [] ∧ i.jumpTarget s = none) ∨
    (∃ n a f, memRead s.capacity s.mem a n = .error f ∧ t = (s.busFailed a).takeFault f ∧
      i.isLoad = true ∧ i.isStore = false ∧ i.reportOf = [] ∧ i.jumpTarget s = none) ∨
    (∃ m n a v d, memWrite s.capacity s.mem a n v = (m, none) ∧ t = ({ s with mem := m }.busDone a d).advancePc ∧
      i.isLoad = false ∧ i.isStore = true ∧ i.reportOf = [] ∧ i.jumpTarget s = none) ∨
    (∃ m n a v f, memWrite s.capacity s.mem a n v = (m, some f) ∧
      t = ({ s with mem := m }.busFailed a).takeFault f ∧
      i.isLoad = false ∧ i.isStore = true ∧ i.reportOf = [] ∧ i.jumpTarget s = none) ∨
    (∃ c, HaltsWith i c ∧ t = s.takeHalt c ∧
      i.isLoad = false ∧ i.isStore = false ∧ i.reportOf = [] ∧ i.jumpTarget s = none) ∨
    (∃ e, t = (s.report e).advancePc ∧
      i.isLoad = false ∧ i.isStore = false ∧ i.reportOf = [e] ∧ i.jumpTarget s = none) := by
  rcases exec_cases i s with ⟨rd, v, hd, he, p⟩ | ⟨rd, target, hd, he, p⟩ | ⟨_, _, pl, ps, pr, ⟨pj, e⟩ | ⟨_, pj, e⟩⟩ |
    ⟨n, ext, rd, rs1, imm, hd, he, pl, ps, pr, pj⟩ | ⟨n, rs1, rs2, imm, _, _, e, pl, ps, pr, pj⟩ |
    ⟨_, hc, _, _, e, pl, ps, pr, pj⟩ | ⟨_, _, _, e, pl, ps, pr, pj⟩
  · have := he rd
    rw [withDestination_destination hd, h] at this
    injection this with this
    exact .inl ⟨rd, v, hd, this, p⟩
  · have := he rd
    rw [withDestination_destination hd, h] at this
    injection this with this
    exact .inr (.inl ⟨rd, _, target, hd, this, p⟩)
  · rw [h] at e
    injection e with e
    exact .inr (.inr (.inl ⟨e, pl, ps, pr, pj⟩))
  · rw [h] at e
    injection e with e
    exact .inr (.inr (.inr (.inl ⟨_, e, pl, ps, pr, pj⟩)))
  · have := he rd s
    rw [withDestination_destination hd, h] at this
    rcases loadInto_cases n ext rd rs1 imm s with ⟨_, _, e⟩ | ⟨_, q, e⟩ <;> rw [← this] at e <;> injection e with e
    · exact .inr (.inr (.inr (.inr (.inl ⟨rd, _, _, _, hd, e, pl, ps, pr, pj s⟩))))
    · exact .inr (.inr (.inr (.inr (.inr (.inl ⟨_, _, _, q, e, pl, ps, pr, pj s⟩)))))
  · have := e s
    rw [h] at this
    obtain ⟨_, ⟨q, e⟩ | ⟨_, q, e⟩⟩ := storeFrom_cases n rs1 rs2 imm s <;> rw [← this] at e <;> injection e with e
    · exact .inr (.inr (.inr (.inr (.inr (.inr (.inl ⟨_, _, _, _, _, q, e, pl, ps, pr, pj s⟩))))))
    · exact .inr (.inr (.inr (.inr (.inr (.inr (.inr (.inl ⟨_, _, _, _, _, q, e, pl, ps, pr, pj s⟩)))))))
  · have := e s
    rw [h] at this
    injection this with this
    exact .inr (.inr (.inr (.inr (.inr (.inr (.inr (.inr (.inl ⟨_, hc, this, pl, ps, pr, pj s⟩))))))))
  · have := e s
    rw [h] at this
    injection this with this
    exact .inr (.inr (.inr (.inr (.inr (.inr (.inr (.inr (.inr ⟨_, this, pl, ps, pr, pj s⟩))))))))

end Sys2Proof.Machine
end

