-- ==== Sys2Proof/Laws/PerInstr.lean ====
section
/-! SUPPORT. Statements made per instruction, one lemma a constructor. `EncodedRow`: an instruction's word is of the
instruction's row of spec/opcode_table.json (30_encoding.md R53). -/

namespace Sys2Proof.Laws.EncodedRow

/-- The encoded word has the row's value under the row's mask. -/
def Statement (i : Instr) : Prop := i.wellFormed = true → i.row.accepts (encode i)

/-- Masking an R-format word masks its fields. -/
theorem encodeR_and (a f7 : BitVec 7) (b c d rs2 rs1 rd : BitVec 5) (e f3 : BitVec 3) (g op : BitVec 7) :
    encodeR f7 rs2 rs1 f3 rd op &&& encodeR a b c e d g =
      encodeR (f7 &&& a) (rs2 &&& b) (rs1 &&& c) (f3 &&& e) (rd &&& d) (op &&& g) := by
  change ((f7 ++ rs2 ++ rs1 ++ f3 ++ rd ++ op : BitVec (7 + 5 + 5 + 3 + 5 + 7)) &&& (a ++ b ++ c ++ e ++ d ++ g)) =
    ((f7 &&& a) ++ (rs2 &&& b) ++ (rs1 &&& c) ++ (f3 &&& e) ++ (rd &&& d) ++ (op &&& g))
  simp only [BitVec.and_append]

theorem rowR (f7 : BitVec 7) (rs2 rs1 : RegIdx) (f3 : BitVec 3) (rd : RegIdx) (op : BitVec 7) {value : Word}
    (h : encodeR f7 0#5 0#5 f3 0#5 op = value) : encodeR f7 rs2 rs1 f3 rd op &&& 0xFE00707F#32 = value := by
  have m : 0xFE00707F#32 = encodeR 127#7 0#5 0#5 7#3 0#5 127#7 := rfl
  have all7 (x : BitVec 7) : x &&& 127#7 = x := BitVec.and_allOnes
  have all3 (x : BitVec 3) : x &&& 7#3 = x := BitVec.and_allOnes
  rw [m, encodeR_and, all7, all7, all3, BitVec.and_zero, BitVec.and_zero, BitVec.and_zero, h]

theorem rowF (f7 : BitVec 7) (rs2 rs1 : RegIdx) (f3 : BitVec 3) (rd : RegIdx) (op : BitVec 7) {value : Word}
    (h : encodeR 0#7 0#5 0#5 f3 0#5 op = value) : encodeR f7 rs2 rs1 f3 rd op &&& 0x0000707F#32 = value := by
  have m : 0x0000707F#32 = encodeR 0#7 0#5 0#5 7#3 0#5 127#7 := rfl
  have all7 (x : BitVec 7) : x &&& 127#7 = x := BitVec.and_allOnes
  have all3 (x : BitVec 3) : x &&& 7#3 = x := BitVec.and_allOnes
  rw [m, encodeR_and, all7, all3, BitVec.and_zero, BitVec.and_zero, BitVec.and_zero, BitVec.and_zero, h]

theorem rowI (imm : Word) (rs1 : RegIdx) (f3 : BitVec 3) (rd : RegIdx) (op : BitVec 7) (value : Word)
    (h : encodeR 0#7 0#5 0#5 f3 0#5 op = value) : encodeI imm rs1 f3 rd op &&& 0x0000707F#32 = value := by
  rw [encodeI_eq]; exact rowF _ _ _ _ _ _ h

theorem rowS (imm : Word) (rs2 rs1 : RegIdx) (f3 : BitVec 3) (op : BitVec 7) (value : Word)
    (h : encodeR 0#7 0#5 0#5 f3 0#5 op = value) : encodeS imm rs2 rs1 f3 op &&& 0x0000707F#32 = value := by
  rw [encodeS_eq]; exact rowF _ _ _ _ _ _ h

theorem rowB (imm : Word) (rs2 rs1 : RegIdx) (f3 : BitVec 3) (op : BitVec 7) (value : Word)
    (h : encodeR 0#7 0#5 0#5 f3 0#5 op = value) : encodeB imm rs2 rs1 f3 op &&& 0x0000707F#32 = value := by
  rw [encodeB_eq]; exact rowF _ _ _ _ _ _ h

/-- Masking the opcode of a word of any format. -/
theorem rowOpcode (x : BitVec 25) (op : BitVec 7) {value : Word} (h : 0#25 ++ op = value) :
    (x ++ op : BitVec 32) &&& 0x0000007F#32 = value := by
  have m : 0x0000007F#32 = 0#25 ++ 127#7 := rfl
  have all7 : op &&& 127#7 = op := BitVec.and_allOnes
  rw [m, BitVec.and_append, BitVec.and_zero, all7, h]

theorem rowU (imm : Word) (rd : RegIdx) (op : BitVec 7) (value : Word) (h : 0#25 ++ op = value) :
    encodeU imm rd op &&& 0x0000007F#32 = value := rowOpcode _ op h

theorem rowJ (imm : Word) (rd : RegIdx) (op : BitVec 7) (value : Word) (h : 0#25 ++ op = value) :
    encodeJ imm rd op &&& 0x0000007F#32 = value := rowOpcode _ op h

theorem rowSystem (w : Word) : Statement (.systemOther w) := by
  intro h
  simp only [Instr.wellFormed, systemOtherOk, Bool.and_eq_true, decide_eq_true_eq] at h
  have e : w.extractLsb' 0 7 = 0x73#7 := by
    rw [setWidth_eq_extract]
    exact BitVec.eq_of_toNat_eq (by rw [BitVec.toNat_setWidth]; exact h.1.1)
  have split : w = w.extractLsb' 7 25 ++ w.extractLsb' 0 7 := by
    rw [extract_join w 0 25 7]; exact (extract_whole w).symm
  show w &&& 0x0000007F#32 = 0x00000073#32
  rw [split, e]
  exact rowOpcode _ _ rfl

theorem add (rd rs1 rs2 : RegIdx) : Statement (.add rd rs1 rs2) := fun _ => rowR _ _ _ _ _ _ rfl
theorem sub (rd rs1 rs2 : RegIdx) : Statement (.sub rd rs1 rs2) := fun _ => rowR _ _ _ _ _ _ rfl
theorem sll (rd rs1 rs2 : RegIdx) : Statement (.sll rd rs1 rs2) := fun _ => rowR _ _ _ _ _ _ rfl
theorem slt (rd rs1 rs2 : RegIdx) : Statement (.slt rd rs1 rs2) := fun _ => rowR _ _ _ _ _ _ rfl
theorem sltu (rd rs1 rs2 : RegIdx) : Statement (.sltu rd rs1 rs2) := fun _ => rowR _ _ _ _ _ _ rfl
theorem xor (rd rs1 rs2 : RegIdx) : Statement (.xor rd rs1 rs2) := fun _ => rowR _ _ _ _ _ _ rfl
theorem srl (rd rs1 rs2 : RegIdx) : Statement (.srl rd rs1 rs2) := fun _ => rowR _ _ _ _ _ _ rfl
theorem sra (rd rs1 rs2 : RegIdx) : Statement (.sra rd rs1 rs2) := fun _ => rowR _ _ _ _ _ _ rfl
theorem or (rd rs1 rs2 : RegIdx) : Statement (.or rd rs1 rs2) := fun _ => rowR _ _ _ _ _ _ rfl
theorem and (rd rs1 rs2 : RegIdx) : Statement (.and rd rs1 rs2) := fun _ => rowR _ _ _ _ _ _ rfl
theorem addi (rd rs1 : RegIdx) (imm : Word) : Statement (.addi rd rs1 imm) := fun _ => rowI _ _ _ _ _ _ rfl
theorem slti (rd rs1 : RegIdx) (imm : Word) : Statement (.slti rd rs1 imm) := fun _ => rowI _ _ _ _ _ _ rfl
theorem sltiu (rd rs1 : RegIdx) (imm : Word) : Statement (.sltiu rd rs1 imm) := fun _ => rowI _ _ _ _ _ _ rfl
theorem xori (rd rs1 : RegIdx) (imm : Word) : Statement (.xori rd rs1 imm) := fun _ => rowI _ _ _ _ _ _ rfl
theorem ori (rd rs1 : RegIdx) (imm : Word) : Statement (.ori rd rs1 imm) := fun _ => rowI _ _ _ _ _ _ rfl
theorem andi (rd rs1 : RegIdx) (imm : Word) : Statement (.andi rd rs1 imm) := fun _ => rowI _ _ _ _ _ _ rfl
theorem slli (rd rs1 : RegIdx) (shamt : BitVec 5) : Statement (.slli rd rs1 shamt) := fun _ => rowR _ _ _ _ _ _ rfl
theorem srli (rd rs1 : RegIdx) (shamt : BitVec 5) : Statement (.srli rd rs1 shamt) := fun _ => rowR _ _ _ _ _ _ rfl
theorem srai (rd rs1 : RegIdx) (shamt : BitVec 5) : Statement (.srai rd rs1 shamt) := fun _ => rowR _ _ _ _ _ _ rfl
theorem lb (rd rs1 : RegIdx) (imm : Word) : Statement (.lb rd rs1 imm) := fun _ => rowI _ _ _ _ _ _ rfl
theorem lh (rd rs1 : RegIdx) (imm : Word) : Statement (.lh rd rs1 imm) := fun _ => rowI _ _ _ _ _ _ rfl
theorem lw (rd rs1 : RegIdx) (imm : Word) : Statement (.lw rd rs1 imm) := fun _ => rowI _ _ _ _ _ _ rfl
theorem lbu (rd rs1 : RegIdx) (imm : Word) : Statement (.lbu rd rs1 imm) := fun _ => rowI _ _ _ _ _ _ rfl
theorem lhu (rd rs1 : RegIdx) (imm : Word) : Statement (.lhu rd rs1 imm) := fun _ => rowI _ _ _ _ _ _ rfl
theorem sb (rs1 rs2 : RegIdx) (imm : Word) : Statement (.sb rs1 rs2 imm) := fun _ => rowS _ _ _ _ _ _ rfl
theorem sh (rs1 rs2 : RegIdx) (imm : Word) : Statement (.sh rs1 rs2 imm) := fun _ => rowS _ _ _ _ _ _ rfl
theorem sw (rs1 rs2 : RegIdx) (imm : Word) : Statement (.sw rs1 rs2 imm) := fun _ => rowS _ _ _ _ _ _ rfl
theorem jalr (rd rs1 : RegIdx) (imm : Word) : Statement (.jalr rd rs1 imm) := fun _ => rowI _ _ _ _ _ _ rfl
theorem beq (rs1 rs2 : RegIdx) (imm : Word) : Statement (.beq rs1 rs2 imm) := fun _ => rowB _ _ _ _ _ _ rfl
theorem bne (rs1 rs2 : RegIdx) (imm : Word) : Statement (.bne rs1 rs2 imm) := fun _ => rowB _ _ _ _ _ _ rfl
theorem blt (rs1 rs2 : RegIdx) (imm : Word) : Statement (.blt rs1 rs2 imm) := fun _ => rowB _ _ _ _ _ _ rfl
theorem bge (rs1 rs2 : RegIdx) (imm : Word) : Statement (.bge rs1 rs2 imm) := fun _ => rowB _ _ _ _ _ _ rfl
theorem bltu (rs1 rs2 : RegIdx) (imm : Word) : Statement (.bltu rs1 rs2 imm) := fun _ => rowB _ _ _ _ _ _ rfl
theorem bgeu (rs1 rs2 : RegIdx) (imm : Word) : Statement (.bgeu rs1 rs2 imm) := fun _ => rowB _ _ _ _ _ _ rfl
theorem jal (rd : RegIdx) (imm : Word) : Statement (.jal rd imm) := fun _ => rowJ _ _ _ _ rfl
theorem lui (rd : RegIdx) (imm : Word) : Statement (.lui rd imm) := fun _ => rowU _ _ _ _ rfl
theorem auipc (rd : RegIdx) (imm : Word) : Statement (.auipc rd imm) := fun _ => rowU _ _ _ _ rfl
theorem ecall : Statement .ecall := fun _ => rfl
theorem ebreak : Statement .ebreak := fun _ => rfl
theorem systemOther (word : Word) : Statement (.systemOther word) := rowSystem word
theorem halt : Statement .halt := fun _ => rfl

end Sys2Proof.Laws.EncodedRow
end

