-- ==== Sys2Proof/Tests/Slice0.lean ====
section
/-! SUPPORT. The model's own tests. Expected results are those of spec/95_test_vectors.md (the parts named) and of the
examples of the rules; each test of an instruction is one step of a small state. Then one witness per statement. -/

namespace Sys2Proof.Tests

open Sys2Proof.Machine

/-! WellFormed: an ill-formed term for each check, which the check refuses (30_encoding.md R45 to R50, R57). -/

theorem test_wf_imm12 :
    Instr.wellFormed (.addi 1 1 0x800#32) = false ∧ Instr.wellFormed (.lw 1 1 0xFFFFF7FF#32) = false ∧
    Instr.wellFormed (.sb 1 1 0x800#32) = false ∧ Instr.wellFormed (.jalr 1 1 0xFFFFF7FF#32) = false ∧
    Instr.wellFormed (.addi 1 1 0x7FF#32) = true ∧ Instr.wellFormed (.sw 1 1 0xFFFFF800#32) = true := by decide

theorem test_wf_branch :
    Instr.wellFormed (.beq 1 1 0x1000#32) = false ∧ Instr.wellFormed (.bne 1 1 0xFFFFEFFE#32) = false ∧
    Instr.wellFormed (.blt 1 1 3#32) = false ∧ Instr.wellFormed (.bge 1 1 0xFFE#32) = true ∧
    Instr.wellFormed (.bgeu 1 1 0xFFFFF000#32) = true := by decide

theorem test_wf_jal :
    Instr.wellFormed (.jal 1 0x100000#32) = false ∧ Instr.wellFormed (.jal 1 0xFFEFFFFE#32) = false ∧
    Instr.wellFormed (.jal 1 1#32) = false ∧ Instr.wellFormed (.jal 1 0xFFFFE#32) = true ∧
    Instr.wellFormed (.jal 1 0xFFF00000#32) = true := by decide

theorem test_wf_upper :
    Instr.wellFormed (.lui 1 0x12345001#32) = false ∧ Instr.wellFormed (.auipc 1 0x800#32) = false ∧
    Instr.wellFormed (.lui 1 0xFFFFF000#32) = true := by decide

theorem test_wf_system :
    Instr.wellFormed (.systemOther 0x00000073#32) = false ∧ Instr.wellFormed (.systemOther 0x00100073#32) = false ∧
    Instr.wellFormed (.systemOther 0x00000013#32) = false ∧ Instr.wellFormed (.systemOther 0x000000F3#32) = true := by
  decide

/-! Decoding: a word for every constructor, from 95_test_vectors.md S1 and 2.1 to 2.7. -/

theorem test_decode_register :
    decodeWord 0x002081B3#32 = .ok (.add 3 1 2) ∧ decodeWord 0x402081B3#32 = .ok (.sub 3 1 2) ∧
    decodeWord 0x002091B3#32 = .ok (.sll 3 1 2) ∧ decodeWord 0x0020A1B3#32 = .ok (.slt 3 1 2) ∧
    decodeWord 0x0020B1B3#32 = .ok (.sltu 3 1 2) ∧ decodeWord 0x0020C1B3#32 = .ok (.xor 3 1 2) ∧
    decodeWord 0x0020D1B3#32 = .ok (.srl 3 1 2) ∧ decodeWord 0x4020D1B3#32 = .ok (.sra 3 1 2) ∧
    decodeWord 0x0020E1B3#32 = .ok (.or 3 1 2) ∧ decodeWord 0x0020F1B3#32 = .ok (.and 3 1 2) := by decide

theorem test_decode_immediate :
    decodeWord 0xFFF08193#32 = .ok (.addi 3 1 0xFFFFFFFF#32) ∧ decodeWord 0x8000A193#32 = .ok (.slti 3 1 0xFFFFF800#32) ∧
    decodeWord 0x0010B193#32 = .ok (.sltiu 3 1 1#32) ∧ decodeWord 0x7FF0C193#32 = .ok (.xori 3 1 0x7FF#32) ∧
    decodeWord 0x8000E193#32 = .ok (.ori 3 1 0xFFFFF800#32) ∧ decodeWord 0x7FF0F193#32 = .ok (.andi 3 1 0x7FF#32) ∧
    decodeWord 0x01F09193#32 = .ok (.slli 3 1 31) ∧ decodeWord 0x0010D193#32 = .ok (.srli 3 1 1) ∧
    decodeWord 0x4010D193#32 = .ok (.srai 3 1 1) := by decide

theorem test_decode_memory :
    decodeWord 0x00408183#32 = .ok (.lb 3 1 4#32) ∧ decodeWord 0x00309183#32 = .ok (.lh 3 1 3#32) ∧
    decodeWord 0xFFF0A183#32 = .ok (.lw 3 1 0xFFFFFFFF#32) ∧ decodeWord 0x0070C183#32 = .ok (.lbu 3 1 7#32) ∧
    decodeWord 0x0050D183#32 = .ok (.lhu 3 1 5#32) ∧ decodeWord 0xFE208FA3#32 = .ok (.sb 1 2 0xFFFFFFFF#32) ∧
    decodeWord 0x002090A3#32 = .ok (.sh 1 2 1#32) ∧ decodeWord 0x7E20AFA3#32 = .ok (.sw 1 2 0x7FF#32) := by decide

theorem test_decode_control :
    decodeWord 0x00038863#32 = .ok (.beq 7 0 16#32) ∧ decodeWord 0xFE209EE3#32 = .ok (.bne 1 2 0xFFFFFFFC#32) ∧
    decodeWord 0x0020C463#32 = .ok (.blt 1 2 8#32) ∧ decodeWord 0x0020D463#32 = .ok (.bge 1 2 8#32) ∧
    decodeWord 0x0020E463#32 = .ok (.bltu 1 2 8#32) ∧ decodeWord 0x0020F463#32 = .ok (.bgeu 1 2 8#32) ∧
    decodeWord 0x7E000FE3#32 = .ok (.beq 0 0 0xFFE#32) ∧ decodeWord 0x80000063#32 = .ok (.beq 0 0 0xFFFFF000#32) ∧
    decodeWord 0xFFF280E7#32 = .ok (.jalr 1 5 0xFFFFFFFF#32) ∧ decodeWord 0xFF5FF06F#32 = .ok (.jal 0 0xFFFFFFF4#32) ∧
    decodeWord 0x7FFFF0EF#32 = .ok (.jal 1 0xFFFFE#32) ∧ decodeWord 0x800000EF#32 = .ok (.jal 1 0xFFF00000#32) := by decide

theorem test_decode_upper_and_system :
    decodeWord 0x123452B7#32 = .ok (.lui 5 0x12345000#32) ∧ decodeWord 0xFFFFF297#32 = .ok (.auipc 5 0xFFFFF000#32) ∧
    decodeWord 0x00000073#32 = .ok .ecall ∧ decodeWord 0x00100073#32 = .ok .ebreak ∧
    decodeWord 0x30200073#32 = .ok (.systemOther 0x30200073#32) ∧ decodeWord 0x00000000#32 = .ok .halt := by decide

theorem test_decode_rejects :
    decodeWord 0x022081B3#32 = .error .reservedRegisterFunction ∧ decodeWord 0x402091B3#32 = .error .reservedRegisterFunction ∧
    decodeWord 0x13131313#32 = .error .reservedShiftFunction ∧ decodeWord 0x0000B183#32 = .error .reservedLoadWidth ∧
    decodeWord 0x0020A463#32 = .error .reservedBranchCondition ∧ decodeWord 0x00009067#32 = .error .reservedJalrFunction ∧
    decodeWord 0x0000100F#32 = .error .unknownOpcode ∧ decodeWord 0xFFFFFFFF#32 = .error .unknownOpcode ∧
    decodeWord 0x00000001#32 = .error .unknownOpcode ∧ decodeWord 0x00004032#32 = .error .unknownOpcode ∧
    decodeBytes [0#8, 0#8, 0#8] = .error .truncated := by decide

/-- 20_memory.md R30: the bytes of ADDI x1,x0,5 (95_test_vectors.md 2.9), and its number in the opcode table. -/
theorem test_decode_bytes :
    decodeBytes [0x93#8, 0x00#8, 0x50#8, 0x00#8, 0xAA#8] = .ok (.addi 1 0 5#32, [0xAA#8]) ∧
    decodeTableWord 32 0x00500093 = some (.addi 1 0 5#32) ∧ encode (.addi 1 0 5#32) = 0x00500093#32 := by decide

/-! One step of one instruction. -/

/-- Reset with a pc, some registers and some bytes. -/
def given (pc : Word) (regs : List (RegIdx × Word)) (bytes : List (Nat × Byte)) : State :=
  { regs.foldl (fun s p => s.writeReg p.1 p.2) State.reset with
    pc := pc, mem := bytes.foldl (fun m p => m.insert p.1 p.2) [] }

/-- The state after one step that runs the word `w`. -/
def after (w : Nat) (s : State) : Option State :=
  match step (s.withFetchWord 32 w) with
  | .next t => some t
  | .fault _ => none
  | .refused _ => none

/-- `x3` after the word `w` with two values in `x1` and `x2`. -/
def x3After (w : Nat) (a b : Word) : Option Word := (after w (given 0 [(1, a), (2, b)] [])).map (·.readReg 3)

/-- The pc after the word `w` at 0x100 with two values in `x1` and `x2`. -/
def pcAfter (w : Nat) (a b : Word) : Option Word := (after w (given 0x100#32 [(1, a), (2, b)] [])).map (·.pc)

/-- 95_test_vectors.md 2.3: the bytes its loads read. -/
def loadBytes : List (Nat × Byte) :=
  [(0x100, 0x78), (0x101, 0x56), (0x102, 0x34), (0x103, 0x12), (0x104, 0x80), (0x106, 0x80), (0x107, 0xFF)]

/-- `x3` after the load `w` from `a`. -/
def loaded (w : Nat) (a : Word) : Option Word := (after w (given 0x1000#32 [(1, a), (3, 0xDEAD)] loadBytes)).map (·.readReg 3)

/-- Bytes after the store `w` of 0xA1B2C3D4 at 0x200 (95_test_vectors.md 2.4). -/
def stored (w : Nat) (addrs : List Word) : Option (List (Option Byte)) :=
  (after w (given 0x1000#32 [(1, 0x200), (2, 0xA1B2C3D4)] [])).map fun t => addrs.map t.byteAt

theorem test_add : x3After 0x002081B3 0x7FFFFFFF 1 = some 0x80000000 := by decide
theorem test_sub : x3After 0x402081B3 0 1 = some 0xFFFFFFFF := by decide
theorem test_sll : x3After 0x002091B3 1 0x20 = some 1 := by decide
theorem test_slt : x3After 0x0020A1B3 0x80000000 0x7FFFFFFF = some 1 := by decide
theorem test_sltu : x3After 0x0020B1B3 0x80000000 0x7FFFFFFF = some 0 := by decide
theorem test_xor : x3After 0x0020C1B3 0xAAAAAAAA 0xFFFFFFFF = some 0x55555555 := by decide
theorem test_srl : x3After 0x0020D1B3 0x80000000 0x3F = some 1 := by decide
theorem test_sra : x3After 0x4020D1B3 0x80000000 0x1F = some 0xFFFFFFFF := by decide
theorem test_or : x3After 0x0020E1B3 0xAAAAAAAA 0x55555555 = some 0xFFFFFFFF := by decide
theorem test_and : x3After 0x0020F1B3 0xAAAAAAAA 0x55555555 = some 0 := by decide
theorem test_addi : x3After 0x80008193 0 0 = some 0xFFFFF800 := by decide
theorem test_slti : x3After 0xFFF0A193 0xFFFFFFFF 0 = some 0 := by decide
theorem test_sltiu : x3After 0x8000B193 0xFFFFF7FF 0 = some 1 := by decide
theorem test_xori : x3After 0x7FF0C193 0xFFFFFFFF 0 = some 0xFFFFF800 := by decide
theorem test_ori : x3After 0x8000E193 1 0 = some 0xFFFFF801 := by decide
theorem test_andi : x3After 0x8000F193 0xFFFFFFFF 0 = some 0xFFFFF800 := by decide
theorem test_slli : x3After 0x01F09193 3 0 = some 0x80000000 := by decide
theorem test_srli : x3After 0x01F0D193 0x80000000 0 = some 1 := by decide
theorem test_srai : x3After 0x4010D193 0xFFFFFFFE 0 = some 0xFFFFFFFF := by decide

theorem test_lb : loaded 0x00408183 0x100 = some 0xFFFFFF80 := by decide
theorem test_lh : loaded 0x00309183 0x100 = some 0xFFFF8012 := by decide
theorem test_lw : loaded 0x7FF0A183 0xFFFFF901 = some 0x12345678 := by decide
theorem test_lbu : loaded 0x0070C183 0x100 = some 0xFF := by decide
theorem test_lhu : loaded 0x0050D183 0x100 = some 0x8000 := by decide
theorem test_sb : stored 0x00208023 [0x1FF, 0x200, 0x201] = some [some 0, some 0xD4, some 0] := by decide
theorem test_sh : stored 0x002090A3 [0x200, 0x201, 0x202, 0x203] = some [some 0, some 0xD4, some 0xC3, some 0] := by decide
theorem test_sw :
    stored 0x0020A1A3 [0x202, 0x203, 0x204, 0x205, 0x206, 0x207] =
      some [some 0, some 0xD4, some 0xC3, some 0xB2, some 0xA1, some 0] := by decide

/-- 95_test_vectors.md 2.3: the load faults, keeps the pc and `x3`, and shows its address on the bus. -/
theorem test_lw_fault :
    (after 0x0000A183 (given 0x1000#32 [(1, 0x9FFFD), (3, 0xDEAD)] [])).map
        (fun t => (t.status, t.pc, t.readReg 3, t.busAddr)) =
      some (.faulted (.outOfBounds 0x9FFFD), 0x1000, 0xDEAD, 0x9FFFD) := by decide

theorem test_beq : pcAfter 0x00208463 5 5 = some 0x108 ∧ pcAfter 0x00208463 5 6 = some 0x104 := by decide
theorem test_bne : pcAfter 0xFE209EE3 5 5 = some 0x104 ∧ pcAfter 0xFE209EE3 5 6 = some 0xFC := by decide
theorem test_blt : pcAfter 0x0020C463 0x80000000 0x7FFFFFFF = some 0x108 ∧ pcAfter 0x0020C463 5 5 = some 0x104 := by decide
theorem test_bge : pcAfter 0x0020D463 5 5 = some 0x108 ∧ pcAfter 0x0020D463 0x80000000 0 = some 0x104 := by decide
theorem test_bltu : pcAfter 0x0020E463 0x80000000 0x7FFFFFFF = some 0x104 ∧ pcAfter 0x0020E463 0 1 = some 0x108 := by decide
theorem test_bgeu : pcAfter 0x0020F463 0x80000000 0x7FFFFFFF = some 0x108 ∧ pcAfter 0x0020F463 0 1 = some 0x104 := by decide
theorem test_jal :
    (after 0x800000EF (given 0x80000#32 [] [])).map (fun t => (t.readReg 1, t.pc)) = some (0x80004, 0xFFF80000) := by decide
theorem test_jalr :
    (after 0x000080E7 (given 0x100#32 [(1, 0x203)] [])).map (fun t => (t.readReg 1, t.pc)) = some (0x104, 0x202) := by decide
theorem test_lui : (after 0x123452B7 (given 0 [] [])).map (·.readReg 5) = some 0x12345000 := by decide
theorem test_auipc : (after 0xFFFFF297 (given 0x2000#32 [] [])).map (·.readReg 5) = some 0x1000 := by decide

/-- 95_test_vectors.md 2.7. -/
theorem test_ecall : (after 0x00000073 (given 0x40#32 [] [])).map (fun t => (t.status, t.pc)) = some (.halted .ecall, 0x40) := by
  decide
theorem test_ebreak : (after 0x00100073 (given 0x0C#32 [] [])).map (fun t => (t.status, t.pc)) = some (.halted .ebreak, 0x0C) := by
  decide
theorem test_halt : (after 0x00000000 (given 0x1C#32 [] [])).map (fun t => (t.status, t.pc)) = some (.halted .zeroWord, 0x1C) := by
  decide
theorem test_system_other :
    (after 0x300110F3 (given 0x20#32 [(1, 5), (2, 6)] [])).map (fun t => (t.status, t.pc, t.readReg 1, t.reports)) =
      some (.running, 0x24, 5, [.unrecognizedSystem 0x300110F3#32]) := by decide

/-- 95_test_vectors.md 2.8: the peripheral slots, and a word across VIDEO and the reserved region. -/
theorem test_peripheral_word :
    (let t := (State.reset.writeWord 0x9FC00#32 0x12345678#32).1
     let u := (t.writeWord 0x9FC02#32 0xAABBCCDD#32).1
     (t.hostRead 0x9FC00#32 .word).toOption = some 0x12121212#32 ∧
     (u.hostRead 0x9FC02#32 .word).toOption = some 0xAAAACCCC#32 ∧
     ((State.reset.writeWord 0x8FFFE#32 0xA1B2C3D4#32).1.hostRead 0x8FFFE#32 .word).toOption = some 0x0000C3D4#32) := by
  decide

/-- The status after one step. -/
def statusAfter (s : State) : Option RunStatus :=
  match step s with
  | .next t => some t.status
  | .fault _ => none
  | .refused _ => none

/-- A machine with the larger capacity of 95_test_vectors.md 2.9. -/
def larger (s : State) : State := { s with capacity := 0xB0000 }

/-- 95_test_vectors.md 2.9: the end of the space, and fetches from a slot, from where no region is, and off alignment. -/
theorem test_step_ends :
    statusAfter (given 0x9FFFD#32 [] []) = some (.halted .endOfSpace) ∧
    statusAfter (given 0x9FFFC#32 [] []) = some (.halted .zeroWord) ∧
    statusAfter (given 0x9FC00#32 [] [(0x9FC00, 0x13)]) = some (.faulted (.illegalInstruction 0x13131313#32)) ∧
    statusAfter (larger (given 0x9FFFE#32 [] [])) = some (.faulted (.outOfBounds 0xA0000#32)) ∧
    statusAfter (larger (given 0xAFFFD#32 [] [])) = some (.halted .endOfSpace) ∧
    statusAfter (given 0x2#32 [] [(2, 0x93), (4, 0x50)]) = some .running := by decide

/-! Witnesses: for each statement with hypotheses, a concrete state and operands that meet them, at boundary values. -/

theorem witness_DecodeOfEncodeIsTheInstruction :
    Instr.wellFormed (.addi 31 31 0x7FF#32) = true ∧ Instr.wellFormed (.sw 31 31 0xFFFFF800#32) = true ∧
    Instr.wellFormed (.bge 31 31 0xFFE#32) = true ∧ Instr.wellFormed (.jal 31 0xFFF00000#32) = true ∧
    Instr.wellFormed (.lui 31 0xFFFFF000#32) = true ∧ Instr.wellFormed (.systemOther 0xFFFFFFF3#32) = true := by decide

theorem witness_EncodeOfDecodeIsTheWord : decodeWord 0xFFFFFFF3#32 = .ok (.systemOther 0xFFFFFFF3#32) := by decide

theorem witness_DecoderAcceptsExactlyTheOpcodeTable : decodeWord 0x41F55293#32 = .ok (.srai 5 10 31) := by decide

/-- A machine at pc 0 with the word `w` there. -/
def withWord (w : Word) : State := given 0 [] ((bytesOfWord w).zipIdx.map fun p => (p.2, p.1))

/-- A machine whose `x1` is `a`, at pc 0x1000. -/
def addressing (a : Word) : State := given 0x1000#32 [(1, a), (2, 0xA1B2C3D4)] []

/-- The invariant of a machine built by `addressing`, with either capacity. -/
theorem inv_addressing (a : Word) : Inv (addressing a) ∧ Inv (larger (addressing a)) := by
  have idle : (addressing a).busCtrl = .idle := by
    simp [addressing, given, State.writeReg, State.reset, State.construct]
  have cap : (addressing a).capacity = 0xA0000 := by
    simp [addressing, given, State.writeReg, State.reset, State.construct, Config.minCapacity]
  have mem : (addressing a).mem = [] := rfl
  exact ⟨⟨by rw [mem]; decide, by rw [cap]; decide, fun _ => idle⟩,
    ⟨by rw [show (larger (addressing a)).mem = [] from mem]; decide, by simp [larger, Config.minCapacity], fun _ => idle⟩⟩

theorem witness_UnknownOpcodeFaults :
    Fetching (withWord 0x0FF0000F#32) ∧ AtPc (withWord 0x0FF0000F#32) 0x0FF0000F#32 ∧ 0x0FF0000F#32 ≠ 0#32 ∧
    fieldOpcode 0x0FF0000F#32 ∉ knownOpcodes := by
  unfold Fetching AtPc; decide

theorem witness_UnlistedRegisterFunctionFaults :
    Fetching (withWord 0x402091B3#32) ∧ AtPc (withWord 0x402091B3#32) 0x402091B3#32 ∧
    fieldOpcode 0x402091B3#32 = 0b0110011#7 ∧ ¬(fieldFunct7 0x402091B3#32 = 0b0000000#7) ∧
    ¬(fieldFunct7 0x402091B3#32 = 0b0100000#7 ∧
      (fieldFunct3 0x402091B3#32 = 0b000#3 ∨ fieldFunct3 0x402091B3#32 = 0b101#3)) := by
  unfold Fetching AtPc; decide

/-- One word for each reserved function code class, fetched at 0. -/
theorem witness_ReservedFunctionCodesFault :
    (Fetching (withWord 0x13131313#32) ∧ AtPc (withWord 0x13131313#32) 0x13131313#32) ∧
    (Fetching (withWord 0x02005013#32) ∧ AtPc (withWord 0x02005013#32) 0x02005013#32) ∧
    (Fetching (withWord 0x0000B183#32) ∧ AtPc (withWord 0x0000B183#32) 0x0000B183#32) ∧
    (Fetching (withWord 0x0020B023#32) ∧ AtPc (withWord 0x0020B023#32) 0x0020B023#32) ∧
    (Fetching (withWord 0x0020A463#32) ∧ AtPc (withWord 0x0020A463#32) 0x0020A463#32) ∧
    (Fetching (withWord 0x00009067#32) ∧ AtPc (withWord 0x00009067#32) 0x00009067#32) ∧
    (fieldOpcode 0x13131313#32 = 0b0010011#7 ∧ fieldFunct3 0x13131313#32 = 0b001#3 ∧
      fieldFunct7 0x13131313#32 ≠ 0b0000000#7) ∧
    (fieldOpcode 0x02005013#32 = 0b0010011#7 ∧ fieldFunct3 0x02005013#32 = 0b101#3 ∧
      fieldFunct7 0x02005013#32 ≠ 0b0000000#7 ∧ fieldFunct7 0x02005013#32 ≠ 0b0100000#7) ∧
    (fieldOpcode 0x0000B183#32 = 0b0000011#7 ∧ fieldFunct3 0x0000B183#32 = 0b011#3) ∧
    (fieldOpcode 0x0020B023#32 = 0b0100011#7 ∧ 0b011#3 ≤ fieldFunct3 0x0020B023#32) ∧
    (fieldOpcode 0x0020A463#32 = 0b1100011#7 ∧ fieldFunct3 0x0020A463#32 = 0b010#3) ∧
    (fieldOpcode 0x00009067#32 = 0b1100111#7 ∧ fieldFunct3 0x00009067#32 ≠ 0b000#3) := by
  unfold Fetching AtPc
  refine ⟨?_, ?_, ?_, ?_, ?_, ?_, ?_⟩ <;> decide

/-- The last address of each access width, and the first of all. -/
theorem witness_LoadsReadMemory :
    Config.minCapacity ≤ (addressing 0x9FFFC).capacity ∧
    ((addressing 0x9FFFF).readReg 1 + 0#32).toNat + 1 ≤ 0xA0000 ∧
    ((addressing 0x9FFFE).readReg 1 + 0#32).toNat + 2 ≤ 0xA0000 ∧
    ((addressing 0x9FFFC).readReg 1 + 0#32).toNat + 4 ≤ 0xA0000 ∧
    ((addressing 1).readReg 1 + 0xFFFFFFFF#32).toNat + 4 ≤ 0xA0000 := by decide

/-- The first failing address of each clause, with the smallest and with a larger capacity. -/
theorem witness_LoadsOutOfBoundsFault :
    0xA0000 ≤ ((addressing 0xA0000).readReg 1 + 0#32).toNat ∧
    (addressing 0x9FFFF).capacity ≤ ((addressing 0x9FFFF).readReg 1 + 0#32).toNat + 1 ∧
    (let s := larger (addressing 0x9FFFF)
     (s.readReg 1 + 0#32).toNat + 1 < s.capacity ∧ 0xA0000 ≤ (s.readReg 1 + 0#32).toNat + 1) ∧
    (addressing 0x9FFFD).capacity ≤ ((addressing 0x9FFFD).readReg 1 + 0#32).toNat + 3 ∧
    (let s := larger (addressing 0x9FFFD)
     (s.readReg 1 + 0#32).toNat + 3 < s.capacity ∧ 0xA0000 ≤ (s.readReg 1 + 0#32).toNat + 3) := by decide

theorem witness_StoresWriteMemory :
    Inv (addressing 0x9FFFF) ∧ ((addressing 0x9FFFF).readReg 1 + 0#32).toNat + 1 ≤ 0xA0000 ∧
    Inv (addressing 0x9FFFE) ∧ ((addressing 0x9FFFE).readReg 1 + 0#32).toNat + 2 ≤ 0xA0000 ∧
    Inv (addressing 0x9FFFC) ∧ ((addressing 0x9FFFC).readReg 1 + 0#32).toNat + 4 ≤ 0xA0000 :=
  ⟨(inv_addressing _).1, by decide, (inv_addressing _).1, by decide, (inv_addressing _).1, by decide⟩

theorem witness_StoresFailingBeforeTheFirstByte :
    0xA0000 ≤ ((addressing 0xA0000).readReg 1 + 0#32).toNat ∧
    (addressing 0x9FFFF).capacity ≤ ((addressing 0x9FFFF).readReg 1 + 0#32).toNat + 1 ∧
    (addressing 0x9FFFD).capacity ≤ ((addressing 0x9FFFD).readReg 1 + 0#32).toNat + 3 := by decide

theorem witness_StoresFailingAtAByteKeepTheBytesBefore :
    (Inv (larger (addressing 0x9FFFF)) ∧
      (let s := larger (addressing 0x9FFFF)
       (s.readReg 1 + 0#32).toNat + 1 < s.capacity ∧ 0xA0000 ≤ (s.readReg 1 + 0#32).toNat + 1)) ∧
    (Inv (larger (addressing 0x9FFFD)) ∧
      (let s := larger (addressing 0x9FFFD)
       (s.readReg 1 + 0#32).toNat + 3 < s.capacity ∧ 0xA0000 ≤ (s.readReg 1 + 0#32).toNat + 3)) :=
  ⟨⟨(inv_addressing _).2, by decide⟩, ⟨(inv_addressing _).2, by decide⟩⟩

/-- The first and the last address of each region, and addresses in none. -/
theorem witness_EveryAddressHasOneRegionOrNone :
    resolve 0x00000#32 = some .ram ∧ resolve 0x7FFFF#32 = some .ram ∧ resolve 0x80000#32 = some .video ∧
    resolve 0x8FFFF#32 = some .video ∧ resolve 0x90000#32 = some .reserved ∧ resolve 0x9FBFF#32 = some .reserved ∧
    resolve 0x9FC00#32 = some .peripheral ∧ resolve 0x9FFFF#32 = some .peripheral ∧ resolve 0xA0000#32 = none ∧
    resolve 0xFFFFFFFF#32 = none := by decide

theorem witness_RamAndVideoWordsReadBack :
    Inv (addressing 0x8FFFC) ∧ (0x8FFFC#32).toNat ≤ 0x8FFFC ∧ (addressing 0x8FFFC).readReg 1 + 0#32 = 0x8FFFC#32 ∧
    (addressing 0x8FFFC).readReg 2 = 0xA1B2C3D4#32 := ⟨(inv_addressing _).1, by decide⟩

/-- The last slot, the last slot with a next one, and the bounds of the offsets. -/
theorem witness_PeripheralSlotsKeepTheLastByte :
    Inv (addressing 0) ∧ 255 < 256 ∧ 254 < 255 ∧ 2 ≤ 2 ∧ 1 ≤ 1 ∧ 3 ≤ 3 := ⟨(inv_addressing _).1, by decide⟩

theorem witness_ReservedRegionIsADeadZone :
    Config.minCapacity ≤ (addressing 0).capacity ∧ 0x90000 ≤ (0x9FBFC#32).toNat ∧
    (0x9FBFC#32).toNat + Width.word.bytes ≤ 0x9FC00 := by decide

theorem witness_LoadedProgramIsInPlace :
    Inv (addressing 0) ∧ 4 * [0x00500093#32, 0x00000000#32].length ≤ 0x90000 := ⟨(inv_addressing _).1, by decide⟩

theorem witness_PcIsWrittenOnce : (addressing 0).status = .running := by decide

theorem witness_OtherSystemWordsReportAndContinue :
    fieldOpcode 0x30200073#32 = 0b1110011#7 ∧ 0x30200073#32 ≠ 0x00000073#32 ∧ 0x30200073#32 ≠ 0x00100073#32 := by decide

/-- The zero word at 0, a word with opcode 0000000 that is not zero, and the last word of the reserved region. -/
theorem witness_ZeroWordHalts :
    (Fetching (withWord 0#32) ∧ AtPc (withWord 0#32) 0#32) ∧
    (Fetching (withWord 0x80000000#32) ∧ AtPc (withWord 0x80000000#32) 0x80000000#32 ∧ 0x80000000#32 ≠ 0#32 ∧
      fieldOpcode 0x80000000#32 = 0b0000000#7) ∧
    0x90000 ≤ (given 0x9FBFC#32 [] []).pc.toNat ∧ (given 0x9FBFC#32 [] []).pc.toNat + 3 ≤ 0x9FBFF := by
  unfold Fetching AtPc; decide

theorem witness_StepRunsTheDecodedInstruction :
    Fetching (withWord 0x00500093#32) ∧ AtPc (withWord 0x00500093#32) 0x00500093#32 ∧
    decodeWord 0x00500093#32 = .ok (.addi 1 0 5#32) := by
  unfold Fetching AtPc; decide

theorem witness_EndOfSpaceHalts :
    (given 0x9FFFD#32 [] []).status = .running ∧ Config.minCapacity ≤ (given 0x9FFFD#32 [] []).capacity ∧
    (given 0x9FFFD#32 [] []).capacity ≤ (given 0x9FFFD#32 [] []).pc.toNat + 3 := by decide

theorem witness_FetchWithoutRegionFaults :
    Fetching (larger (given 0x9FFFD#32 [] [])) ∧ 0xA0000 ≤ (larger (given 0x9FFFD#32 [] [])).pc.toNat + 3 ∧
    Fetching (larger (given 0xAFFFC#32 [] [])) ∧ 0xA0000 ≤ (larger (given 0xAFFFC#32 [] [])).pc.toNat + 3 := by
  unfold Fetching; decide

theorem witness_HaltedAndFaultedAbsorb :
    Config.minCapacity ≤ ((addressing 0).takeHalt .ecall).capacity ∧ ((addressing 0).takeHalt .ecall).status ≠ .running := by
  decide

/-- A Running machine with a step, one that is not Running, and the invariant. -/
theorem witness_RunStepsWhileRunning :
    (withWord 0x00100073#32).status = .running ∧
    step (withWord 0x00100073#32) = .next (((withWord 0x00100073#32).busDone 0 0x00100073#32).takeHalt .ebreak) ∧
    (((withWord 0x00100073#32).busDone 0 0x00100073#32).takeHalt .ebreak).status ≠ .running ∧
    Inv (withWord 0x00100073#32) :=
  ⟨by decide, rfl, by decide, ⟨by decide, by decide, fun _ => by decide⟩⟩

theorem witness_EveryStepAnswersAState :
    Config.minCapacity ≤ (addressing 0).capacity ∧ { addressing 0 with capacity := 0x9FFFF }.capacity < Config.minCapacity := by
  decide

theorem witness_StepKeepsTheInvariant : Inv (larger (addressing 0xA0000)) := (inv_addressing _).2

theorem witness_OnlyTheDestinationRegisterChanges :
    exec (.lui 5 0x12345000#32) (addressing 0) = .next ((addressing 0).writeReg 5 0x12345000#32).advancePc ∧
    (Instr.lui 5 0x12345000#32).destination ≠ some 6 := ⟨rfl, by decide⟩

/-- A compare-free register form, a load, a store and a SYSTEM word, each with a next state. -/
theorem witness_OnlyTheNamedInstructionsTouchMemoryAndBus :
    exec (.lui 5 0x12345000#32) (addressing 0) = .next ((addressing 0).writeReg 5 0x12345000#32).advancePc ∧
    (Instr.lui 5 0x12345000#32).isStore = false ∧ (Instr.lui 5 0x12345000#32).isLoad = false ∧
    (Instr.lw 3 1 0#32).isStore = false := ⟨rfl, by decide⟩

theorem witness_HaltsAndFaultsArePrecise :
    (withWord 0x00100073#32).status = .running ∧ (withWord 0x00100073#32).capacity = Config.minCapacity ∧
    step (withWord 0x00100073#32) = .next (((withWord 0x00100073#32).busDone 0 0x00100073#32).takeHalt .ebreak) ∧
    (((withWord 0x00100073#32).busDone 0 0x00100073#32).takeHalt .ebreak).status ≠ .running ∧
    Inv (withWord 0x00100073#32) :=
  ⟨by decide, by decide, rfl, by decide, ⟨by decide, by decide, fun _ => by decide⟩⟩

/-- A machine at 0x1000 with `SH x2,0(x1)` there, `x1` the last address that has a region, and the larger capacity. -/
def storingPastTheEnd : State :=
  larger (given 0x1000#32 [(1, 0x9FFFF), (2, 0xA1B2C3D4)] [(0x1000, 0x23), (0x1001, 0x90), (0x1002, 0x20)])

/-- The two faulting ends: an illegal instruction at the smallest capacity, and a store that keeps its first byte. -/
theorem witness_HaltsAndFaultsArePrecise_faults :
    (Inv (withWord 0x0FF0000F#32) ∧ (withWord 0x0FF0000F#32).status = .running ∧
      (withWord 0x0FF0000F#32).capacity = Config.minCapacity ∧
      ∃ t, step (withWord 0x0FF0000F#32) = .next t ∧ t.status ≠ .running ∧
        ∀ a, t.status ≠ .faulted (.outOfBounds a)) ∧
    (Inv storingPastTheEnd ∧ storingPastTheEnd.status = .running ∧
      ∃ t, step storingPastTheEnd = .next t ∧ t.status = .faulted (.outOfBounds 0xA0000#32) ∧
        t.byteAt 0x9FFFF#32 = some 0xD4#8) :=
  ⟨⟨⟨by decide, by decide, fun _ => by decide⟩, by decide, by decide, _, rfl, by decide,
      fun a h => absurd (show RunStatus.faulted (.illegalInstruction 0x0FF0000F#32) = _ from h) (by simp)⟩,
    ⟨⟨by decide, by decide, fun _ => by decide⟩, by decide, _, rfl, by decide, by decide⟩⟩

theorem witness_BusRecordIsNotObservable :
    SameProgramState (withWord 0x00500093#32) ((withWord 0x00500093#32).busDone 0x44#32 0x55#32) ∧
    (withWord 0x00500093#32).busAddr ≠ ((withWord 0x00500093#32).busDone 0x44#32 0x55#32).busAddr :=
  ⟨⟨rfl, rfl, rfl, rfl, rfl⟩, by decide⟩

/-- 95_test_vectors.md 2.4 in the shape of the statement: an EBREAK stored where the next instruction is. -/
theorem witness_AStoredWordIsFetchedNext :
    (let s := given 0x1000#32 [(1, 0x1004), (2, 0x00100073)] []
     Inv s ∧ s.status = .running ∧ s.readReg 1 + 0#32 = s.pc + 4#32 ∧ (s.pc + 4#32).toNat ≤ 0x8FFFC ∧
     decodeWord (s.readReg 2) = .ok .ebreak) :=
  ⟨⟨by decide, by decide, fun _ => by decide⟩, by decide, by decide, by decide, by decide⟩

theorem witness_APlacedWordRunsNext :
    ((addressing 0).takeHalt .ecall).mem.wf ∧ decodeWord 0x00500093#32 = .ok (.addi 1 0 5#32) := by decide

/-- The last address of each clause, and the last slot. -/
theorem witness_ReadByteByRegion :
    (0x8FFFF#32).toNat ≤ 0x8FFFF ∧ (0x90000 ≤ (0x9FBFF#32).toNat ∧ (0x9FBFF#32).toNat ≤ 0x9FBFF) ∧
    (0x9FC00 ≤ (0x9FFFF#32).toNat ∧ (0x9FFFF#32).toNat ≤ 0x9FFFF) ∧ 0xA0000 ≤ (0xA0000#32).toNat ∧
    255 < 256 ∧ 3 < 4 := by decide

theorem witness_WriteByteByRegion :
    Inv (addressing 0) ∧ 0xA0000 ≤ (0xA0000#32).toNat ∧
    (0x90000 ≤ (0x90000#32).toNat ∧ (0x90000#32).toNat ≤ 0x9FBFF) ∧ (0x8FFFF#32).toNat ≤ 0x8FFFF ∧
    (0x9FC00 ≤ (0x9FC00#32).toNat ∧ (0x9FC00#32).toNat ≤ 0x9FFFF) := ⟨(inv_addressing _).1, by decide⟩

end Sys2Proof.Tests
end

