-- ==== Sys2Proof/Proofs/Frames.lean ====
section
/-! SUPPORT. What every instruction keeps of the state, one lemma a field, from the cases of `exec_next_cases`. -/

namespace Sys2Proof.Machine

/-- Equal storage reads the same at every address. -/
theorem SameMemory.of_mem_eq {s t : State} (h : t.mem = s.mem) : SameMemory s t :=
  ⟨fun a => by rw [State.byteAt, State.byteAt, h], h⟩

section Instruction
variable {i : Instr} {s t : State}

/-- R23, R121: the capacity is fixed at construction, and the reports grow by what the instruction reports. -/
theorem exec_capacity_reports (e : exec i s = .next t) :
    t.capacity = s.capacity ∧ t.reports = s.reports ++ i.reportOf := by
  rcases exec_next_cases e with ⟨_, _, _, rfl, _, _, r, _⟩ | ⟨_, _, _, _, rfl, _, _, r, _⟩ | ⟨rfl, _, _, r, _⟩ |
    ⟨_, rfl, _, _, r, _⟩ | ⟨_, _, _, _, _, rfl, _, _, r, _⟩ | ⟨_, _, _, _, rfl, _, _, r, _⟩ |
    ⟨_, _, _, _, _, _, rfl, _, _, r, _⟩ | ⟨_, _, _, _, _, _, rfl, _, _, r, _⟩ | ⟨_, _, rfl, _, _, r, _⟩ |
    ⟨_, rfl, _, _, r, _⟩ <;> simp [r]

/-- How a data transaction ends: the control line is idle again, or the failed access ends the run (R35, R36, R131). -/
def TransactionEnded (t : State) : Prop :=
  t.busCtrl = .idle ∨ ∃ a, t.status = .faulted (.outOfBounds a)

/-- R16, R17, R37: an instruction makes no data transaction, or reads memory, or writes it by one memory call. -/
theorem exec_transaction (e : exec i s = .next t) :
    (i.isLoad = false ∧ i.isStore = false ∧ t.mem = s.mem ∧ SameBus s t ∧ t.freeCount = s.freeCount) ∨
    (i.isLoad = true ∧ i.isStore = false ∧ t.mem = s.mem ∧ TransactionEnded t) ∨
    (i.isStore = true ∧ (∃ a n v, t.mem = (memWrite s.capacity s.mem a n v).1) ∧ TransactionEnded t) := by
  rcases exec_next_cases e with ⟨_, _, _, rfl, l, st, _⟩ | ⟨_, _, _, _, rfl, l, st, _⟩ | ⟨rfl, l, st, _⟩ |
    ⟨_, rfl, l, st, _⟩ | ⟨_, _, _, _, _, rfl, l, st, _⟩ | ⟨_, _, _, fail, rfl, l, st, _⟩ |
    ⟨_, n, a, v, _, w, rfl, _, st, _⟩ | ⟨_, n, a, v, _, fail, rfl, _, st, _⟩ | ⟨_, _, rfl, l, st, _⟩ | ⟨_, rfl, l, st, _⟩
  · exact .inl ⟨l, st, by simp [SameBus]⟩
  · exact .inl ⟨l, st, by simp [SameBus]⟩
  · exact .inl ⟨l, st, by simp [SameBus]⟩
  · exact .inl ⟨l, st, by simp [SameBus]⟩
  · exact .inr (.inl ⟨l, st, by simp, .inl (by simp)⟩)
  · obtain ⟨x, rfl⟩ := memRead_error fail
    exact .inr (.inl ⟨l, st, rfl, .inr ⟨x, rfl⟩⟩)
  · exact .inr (.inr ⟨st, ⟨a, n, v, by rw [w]; rfl⟩, .inl rfl⟩)
  · obtain ⟨x, rfl⟩ := memWrite_error fail
    exact .inr (.inr ⟨st, ⟨a, n, v, by rw [fail]; rfl⟩, .inr ⟨x, rfl⟩⟩)
  · exact .inl ⟨l, st, by simp [SameBus]⟩
  · exact .inl ⟨l, st, by simp [SameBus]⟩

/-- R11: a register that is not the destination reads as before. -/
theorem exec_readReg {r : RegIdx} (e : exec i s = .next t) (h : i.destination ≠ some r) :
    t.readReg r = s.readReg r := by
  have write (u : State) {rd : RegIdx} (v : Word) (d : i.destination = some rd) :
      (u.writeReg rd v).readReg r = u.readReg r := by
    rw [State.readReg_writeReg]
    exact if_neg fun ⟨same, _⟩ => h (same ▸ d)
  rcases exec_next_cases e with ⟨_, v, d, rfl, _⟩ | ⟨_, v, _, d, rfl, _⟩ | ⟨rfl, _⟩ | ⟨_, rfl, _⟩ |
    ⟨_, a, v, x, d, rfl, _⟩ | ⟨_, _, _, _, rfl, _⟩ | ⟨_, _, _, _, _, _, rfl, _⟩ | ⟨_, _, _, _, _, _, rfl, _⟩ |
    ⟨_, _, rfl, _⟩ | ⟨_, rfl, _⟩
  · exact write s v d
  · exact write s v d
  · rfl
  · rfl
  · exact write (s.busDone a x) v d
  · rfl
  · rfl
  · rfl
  · rfl
  · rfl

end Instruction

/-- Settles O46, by the one register each instruction can write. -/
theorem onlyTheDestinationRegisterChanges : Obligations.OnlyTheDestinationRegisterChanges :=
  fun _ _ _ _ e h => exec_readReg e h

/-- Settles O47, by the data transaction each instruction makes. -/
theorem onlyTheNamedInstructionsTouchMemoryAndBus : Obligations.OnlyTheNamedInstructionsTouchMemoryAndBus := by
  intro i s t e
  obtain ⟨cap, reports⟩ := exec_capacity_reports e
  rcases exec_transaction e with ⟨_, _, mem, bus⟩ | ⟨load, _, mem, _⟩ | ⟨store, _, _⟩
  · exact ⟨fun _ => .of_mem_eq mem, fun _ _ => bus, reports, cap⟩
  · exact ⟨fun _ => .of_mem_eq mem, fun h => absurd load (by simp [h]), reports, cap⟩
  · exact ⟨fun h => absurd store (by simp [h]), fun _ h => absurd store (by simp [h]), reports, cap⟩

end Sys2Proof.Machine
end

