-- ==== Sys2Proof/Proofs/RegisterZero.lean ====
section
/-! SUPPORT. Register 0 (10_state.md R10): an instruction with destination x0 has every effect but the register write. -/

namespace Sys2Proof.Machine

/-- A register write changes the registers alone. -/
theorem State.writeReg_withRegs (s : State) (r : RegIdx) (v : Word) : { s.writeReg r v with regs := s.regs } = s := by
  unfold State.writeReg
  split <;> rfl

/-- A load into x0 makes the same transaction and ends the same way. -/
theorem loadInto_zero (n : Width) (ext : Word → Word) (rd rs1 : RegIdx) (imm : Word) (s : State) :
    ∃ t, loadInto n ext rd rs1 imm s = .next t ∧ loadInto n ext 0#5 rs1 imm s = .next { t with regs := s.regs } := by
  rcases busRead_cases (effectiveAddress s rs1 imm) n s with ⟨v, _, e⟩ | ⟨f, _, e⟩
  · refine ⟨_, by rw [loadInto, e]; rfl, ?_⟩
    rw [loadInto, e]
    simp [State.advancePc]
  · exact ⟨_, by rw [loadInto, e]; rfl, by rw [loadInto, e]; rfl⟩

/-- R10: the x0 form of an instruction has the same next state but for the registers. A shape without a destination is
its own x0 form. -/
theorem exec_withDestination_zero (i : Instr) (s : State) :
    ∃ t, exec i s = .next t ∧ exec (i.withDestination 0#5) s = .next { t with regs := s.regs } := by
  rcases exec_cases i s with ⟨rd, v, hd, e, _⟩ | ⟨rd, target, hd, e, _⟩ | ⟨_, self, _, _, _, ⟨_, e⟩ | ⟨_, _, e⟩⟩ |
    ⟨n, ext, rd, rs1, imm, hd, e, _⟩ | ⟨n, rs1, rs2, imm, _, self, e, _⟩ | ⟨_, _, _, self, e, _⟩ | ⟨_, _, self, e, _⟩
  · exact ⟨_, withDestination_destination hd ▸ e rd, by rw [e]; simp [State.advancePc]⟩
  · exact ⟨_, withDestination_destination hd ▸ e rd, by rw [e]; simp [State.jumpTo]⟩
  · exact ⟨_, e, (self _).symm ▸ e⟩
  · exact ⟨_, e, (self _).symm ▸ e⟩
  · obtain ⟨t, et, e0⟩ := loadInto_zero n ext rd rs1 imm s
    exact ⟨t, (withDestination_destination hd ▸ e rd s).trans et, (e 0#5 s).trans e0⟩
  · rw [self]
    obtain ⟨_, ⟨_, e'⟩ | ⟨_, _, e'⟩⟩ := storeFrom_cases n rs1 rs2 imm s
    · exact ⟨_, (e s).trans e', (e s).trans e'⟩
    · exact ⟨_, (e s).trans e', (e s).trans e'⟩
  · exact ⟨_, e s, (self _).symm ▸ e s⟩
  · exact ⟨_, e s, (self _).symm ▸ e s⟩

/-- Every instruction answers a state (R124). -/
theorem exec_next (i : Instr) (s : State) : ∃ t, exec i s = .next t :=
  (exec_withDestination_zero i s).imp fun _ h => h.1

/-- Settles O45, by the register laws and the x0 form of each shape of instruction. -/
theorem registerZeroDropsWrites : Obligations.RegisterZeroDropsWrites :=
  ⟨fun s v => ⟨s.readReg_zero, s.writeReg_zero v⟩, exec_withDestination_zero⟩

end Sys2Proof.Machine
end

