-- ==== Sys2Proof/Proofs/Invariant.lean ====
section
/-! SUPPORT. The invariant of Safety.lean: it holds at reset and every step keeps it. -/

namespace Sys2Proof.Machine

theorem Inv.of_idle {s : State} (hm : s.mem.wf) (hc : Config.minCapacity ≤ s.capacity) (hb : s.busCtrl = .idle) :
    Inv s := ⟨hm, hc, fun _ => hb⟩

/-- After a failed transaction the invariant says nothing of the control line. -/
theorem Inv.of_outOfBounds {s : State} {a : Word} (hm : s.mem.wf) (hc : Config.minCapacity ≤ s.capacity)
    (hs : s.status = .faulted (.outOfBounds a)) : Inv s := ⟨hm, hc, fun h => absurd hs (h a)⟩

theorem Inv.idle_of_running {s : State} (h : Inv s) (hr : s.status = .running) : s.busCtrl = .idle :=
  h.bus fun a => by simp [hr]

/-- An instruction that starts with an idle control line, as it does after its fetch, keeps the invariant. -/
theorem exec_keeps_inv {i : Instr} {s t : State} (e : exec i s = .next t) (h : Inv s) (idle : s.busCtrl = .idle) :
    Inv t := by
  have cap : Config.minCapacity ≤ t.capacity := (exec_capacity_reports e).1 ▸ h.capacity
  have ended (wf : t.mem.wf) : TransactionEnded t → Inv t
    | .inl idle => .of_idle wf cap idle
    | .inr ⟨_, oob⟩ => .of_outOfBounds wf cap oob
  rcases exec_transaction e with ⟨_, _, mem, ⟨_, _, ctrl⟩, _⟩ | ⟨_, _, mem, ends⟩ | ⟨_, ⟨a, n, v, mem⟩, ends⟩
  · exact .of_idle (mem ▸ h.memory) cap (ctrl.trans idle)
  · exact ended (mem ▸ h.memory) ends
  · exact ended (mem ▸ memWrite_wf _ _ a n v h.memory) ends

/-- Settles O42, by the cases of the step: the idle line of a Running machine is kept by the halt and the fetch, and by
the instruction unless its access fails. -/
theorem stepKeepsTheInvariant : Obligations.StepKeepsTheInvariant := by
  intro s h
  rcases step_cases s with ⟨low, _⟩ | ⟨_, _, e⟩ | ⟨_, hr, ⟨_, e⟩ | ⟨_, ⟨f, hf, e⟩ | ⟨w, _, _, _, e⟩ | ⟨w, i, _, _, e⟩⟩⟩
  · exact absurd h.capacity (Nat.not_le.2 low)
  · exact ⟨s, e, h⟩
  · exact ⟨_, e, .of_idle h.memory h.capacity (h.idle_of_running hr)⟩
  · obtain ⟨_, rfl⟩ := memRead_error hf
    exact ⟨_, e, .of_outOfBounds h.memory h.capacity rfl⟩
  · exact ⟨_, e, .of_idle h.memory h.capacity rfl⟩
  · obtain ⟨t, e'⟩ := exec_next i (s.busDone s.pc w)
    exact ⟨t, e.trans e', exec_keeps_inv e' (.of_idle h.memory h.capacity rfl) rfl⟩

/-- Settles O43: reset has empty storage, the smallest capacity and an idle control line. -/
theorem resetMeetsInvariant : Obligations.ResetMeetsInvariant :=
  .of_idle reset_mem_wf (Nat.le_refl _) rfl

/-- Every register reads the initial value after reset (R22; log 2). -/
theorem reset_readReg (r : RegIdx) : State.reset.readReg r = 0#32 := by
  by_cases h : r = 0#5
  · rw [h]; rfl
  · simp [State.readReg, h, State.reset, State.construct, Config.regInit]

/-- Every address that has a region reads 0 after reset (R22; log 4). -/
theorem reset_byteAt (a : Word) : State.reset.byteAt a = if a.toNat < 0xA0000 then some 0#8 else none := by
  have region : resolve a = none ↔ ¬a.toNat < 0xA0000 := (resolve_eq_none a).trans Nat.not_lt.symm
  have unlisted (k : Nat) : State.reset.mem.lookup k = 0#8 := rfl
  rw [State.byteAt, readByte_eq]
  by_cases h : a.toNat < 0xA0000
  · rw [if_pos h, if_neg (fun x => region.1 x h)]
    cases storageCell a with
    | none => rfl
    | some k => exact congrArg some (unlisted k)
  · rw [if_neg h, if_pos (region.2 h)]

/-- Settles O44, field by field. -/
theorem resetState : Obligations.ResetState :=
  ⟨rfl, rfl, rfl, rfl, reset_readReg, reset_byteAt, rfl, rfl, rfl⟩

end Sys2Proof.Machine
end

