-- ==== Sys2Proof/Proofs/Noninterference.lean ====
section
/-! SUPPORT. The bus record, the reports and the counter of free values are not observable (10_state.md R17): every
operation takes states that agree on the rest to states that agree on the rest. -/

namespace Sys2Proof.Machine

namespace SameProgramState

section
variable {s s' : State} (h : SameProgramState s s')
include h

theorem pc : s'.pc = s.pc := h.2.1

theorem status : s'.status = s.status := h.2.2.1

theorem mem : s'.mem = s.mem := h.2.2.2.1

theorem capacity : s'.capacity = s.capacity := h.2.2.2.2

theorem readReg (r : RegIdx) : s'.readReg r = s.readReg r := by
  obtain ⟨regs, _⟩ := h
  simp only [State.readReg, regs]

theorem writeReg (r : RegIdx) (v : Word) : SameProgramState (s.writeReg r v) (s'.writeReg r v) := by
  obtain ⟨regs, same⟩ := h
  unfold State.writeReg
  split
  · exact ⟨regs, same⟩
  · exact ⟨by rw [regs], same⟩

theorem jumpTo (target : Word) : SameProgramState (s.jumpTo target) (s'.jumpTo target) := by
  obtain ⟨regs, _, rest⟩ := h
  exact ⟨regs, rfl, rest⟩

theorem advancePc : SameProgramState s.advancePc s'.advancePc := by
  obtain ⟨regs, pc, rest⟩ := h
  exact ⟨regs, congrArg (· + 4#32) pc, rest⟩

theorem takeFault (f : FaultCause) : SameProgramState (s.takeFault f) (s'.takeFault f) := by
  obtain ⟨regs, pc, _, rest⟩ := h
  exact ⟨regs, pc, rfl, rest⟩

theorem takeHalt (c : HaltCause) : SameProgramState (s.takeHalt c) (s'.takeHalt c) := by
  obtain ⟨regs, pc, _, rest⟩ := h
  exact ⟨regs, pc, rfl, rest⟩

theorem withMem (m : Memory) : SameProgramState { s with mem := m } { s' with mem := m } := by
  obtain ⟨regs, pc, status, _, cap⟩ := h
  exact ⟨regs, pc, status, rfl, cap⟩

theorem report (r : Report) : SameProgramState (s.report r) (s'.report r) := h

theorem busDone (a d : Word) : SameProgramState (s.busDone a d) (s'.busDone a d) := h

theorem busFailed (a : Word) : SameProgramState (s.busFailed a) (s'.busFailed a) := h

theorem effectiveAddress (rs1 : RegIdx) (imm : Word) :
    Machine.effectiveAddress s' rs1 imm = Machine.effectiveAddress s rs1 imm :=
  congrArg (· + imm) (h.readReg rs1)

/-- The same read from either machine ends alike. -/
theorem busRead (a : Word) (n : Width) :
    (∃ v, Machine.busRead a n s = .done v (s.busDone a v) ∧ Machine.busRead a n s' = .done v (s'.busDone a v)) ∨
    ∃ f, Machine.busRead a n s = .failed f (s.busFailed a) ∧ Machine.busRead a n s' = .failed f (s'.busFailed a) := by
  unfold Machine.busRead
  rw [h.mem, h.capacity]
  cases memRead s.capacity s.mem a n with
  | ok v => exact .inl ⟨v, rfl, rfl⟩
  | error f => exact .inr ⟨f, rfl, rfl⟩

/-- The same write from either machine leaves the same memory and ends alike. -/
theorem busWrite (a : Word) (n : Width) (v : Word) :
    ∃ m, (∃ d, Machine.busWrite a n v s = .done d ({ s with mem := m }.busDone a d) ∧
        Machine.busWrite a n v s' = .done d ({ s' with mem := m }.busDone a d)) ∨
      ∃ f, Machine.busWrite a n v s = .failed f ({ s with mem := m }.busFailed a) ∧
        Machine.busWrite a n v s' = .failed f ({ s' with mem := m }.busFailed a) := by
  unfold Machine.busWrite
  rw [h.mem, h.capacity]
  rcases memWrite s.capacity s.mem a n v with ⟨m, _ | f⟩
  · exact ⟨m, .inl ⟨_, rfl, rfl⟩⟩
  · exact ⟨m, .inr ⟨f, rfl, rfl⟩⟩

/-! The shared meanings of the instructions. -/

/-- One result in one register, the same from either machine. -/
theorem register (rd : RegIdx) {v v' : Word} (same : v' = v) :
    OutcomesAlike SameProgramState (complete (.fallThrough (s.writeReg rd v)))
      (complete (.fallThrough (s'.writeReg rd v'))) :=
  same ▸ (h.writeReg rd v').advancePc

theorem branchIf {taken taken' : Bool} (imm : Word) (same : taken' = taken) :
    OutcomesAlike SameProgramState (Machine.branchIf taken imm s) (Machine.branchIf taken' imm s') := by
  rw [same, branchIf_eq, branchIf_eq, h.pc]
  cases taken
  · exact h.advancePc
  · exact h.jumpTo (s.pc + imm)

theorem linkAndJump (rd : RegIdx) {target target' : Word} (same : target' = target) :
    OutcomesAlike SameProgramState (Machine.linkAndJump rd target s) (Machine.linkAndJump rd target' s') := by
  unfold Machine.linkAndJump linkValue
  rw [same, h.pc]
  exact (h.writeReg rd _).jumpTo target

theorem loadInto (n : Width) (ext : Word → Word) (rd rs1 : RegIdx) (imm : Word) :
    OutcomesAlike SameProgramState (Machine.loadInto n ext rd rs1 imm s) (Machine.loadInto n ext rd rs1 imm s') := by
  unfold Machine.loadInto
  rw [h.effectiveAddress]
  rcases h.busRead (Machine.effectiveAddress s rs1 imm) n with ⟨v, e, e'⟩ | ⟨f, e, e'⟩
  · rw [e, e']; exact ((h.busDone _ v).writeReg rd (ext v)).advancePc
  · rw [e, e']; exact (h.busFailed _).takeFault f

theorem storeFrom (n : Width) (rs1 rs2 : RegIdx) (imm : Word) :
    OutcomesAlike SameProgramState (Machine.storeFrom n rs1 rs2 imm s) (Machine.storeFrom n rs1 rs2 imm s') := by
  unfold Machine.storeFrom
  rw [h.effectiveAddress, h.readReg]
  obtain ⟨m, ⟨d, e, e'⟩ | ⟨f, e, e'⟩⟩ := h.busWrite (Machine.effectiveAddress s rs1 imm) n (s.readReg rs2)
  · rw [e, e']; exact ((h.withMem m).busDone _ d).advancePc
  · rw [e, e']; exact ((h.withMem m).busFailed _).takeFault f

theorem exec (i : Instr) : OutcomesAlike SameProgramState (Machine.exec i s) (Machine.exec i s') := by
  have pcRel (imm : Word) : pcRelative s' imm = pcRelative s imm := congrArg (· + imm) h.pc
  cases i with
  | add | sub | sll | slt | sltu | xor | srl | sra | or | and => exact h.register _ (by rw [h.readReg, h.readReg])
  | addi | slti | sltiu | xori | ori | andi | slli | srli | srai => exact h.register _ (by rw [h.readReg])
  | lb | lh | lw | lbu | lhu => exact h.loadInto _ _ _ _ _
  | sb | sh | sw => exact h.storeFrom _ _ _ _
  | beq | bne | blt | bge | bltu | bgeu => exact h.branchIf _ (by rw [h.readReg, h.readReg])
  | jalr rd rs1 imm => exact h.linkAndJump rd (by rw [jalrTarget, jalrTarget, h.readReg])
  | jal rd imm => exact h.linkAndJump rd (pcRel imm)
  | lui rd imm => exact (h.writeReg rd imm).advancePc
  | auipc rd imm => exact h.register rd (pcRel imm)
  | ecall => exact h.takeHalt .ecall
  | ebreak => exact h.takeHalt .ebreak
  | halt => exact h.takeHalt .zeroWord
  | systemOther w => exact (h.report (.unrecognizedSystem w)).advancePc

/-! The cycle. -/

theorem runWord (w : Word) : OutcomesAlike SameProgramState (Machine.runWord w s) (Machine.runWord w s') := by
  unfold Machine.runWord
  cases decodeWord w with
  | error _ => exact h.takeFault (.illegalInstruction w)
  | ok i => exact h.exec i

theorem runningStep : OutcomesAlike SameProgramState (Machine.runningStep s) (Machine.runningStep s') := by
  have space : endOfSpace s' = endOfSpace s := by rw [endOfSpace, endOfSpace, h.pc, h.capacity]
  unfold Machine.runningStep fetch
  rw [space, h.pc]
  split
  · exact h.takeHalt .endOfSpace
  · rcases h.busRead s.pc .word with ⟨w, e, e'⟩ | ⟨f, e, e'⟩
    · rw [e, e']; exact (h.busDone s.pc w).runWord w
    · rw [e, e']; exact (h.busFailed s.pc).takeFault f

theorem step : OutcomesAlike SameProgramState (Machine.step s) (Machine.step s') := by
  unfold Machine.step cycle
  rw [h.status, h.capacity]
  split
  · rfl
  · cases s.status with
    | running => exact h.runningStep
    | halted _ => exact h
    | faulted _ => exact h

end

end SameProgramState

/-- Settles O49: the agreement passes from operation to operation, up to the step. -/
theorem busRecordIsNotObservable : Obligations.BusRecordIsNotObservable :=
  fun _ _ h => h.step

end Sys2Proof.Machine
end

