-- ==== Sys2Proof/Proofs/ByteAccesses.lean ====
section
/-! SUPPORT. The address decoder by regions (20_memory.md R24) and the byte accesses over it (R25, R26); the bytes of a
word (R30). -/

namespace Sys2Proof.Machine

/-! The cell each region names. -/

section Region
variable {a : Word}

/-- The cell of an address, written out (R25, R26; layout: log 8). -/
theorem storageCell_cases (a : Word) :
    (storageCell a = some a.toNat ∧ a.toNat ≤ 0x8FFFF) ∨
    (storageCell a = some (0x9FC00 + 4 * ((a.toNat - 0x9FC00) / 4)) ∧ 0x9FC00 ≤ a.toNat ∧ a.toNat ≤ 0x9FFFF) ∨
    (storageCell a = none ∧ (0x90000 ≤ a.toNat ∧ a.toNat ≤ 0x9FBFF ∨ 0xA0000 ≤ a.toNat)) := by
  unfold storageCell
  rcases resolve_cases a with ⟨e, h⟩ | ⟨e, _, h⟩ | ⟨e, h⟩ | ⟨e, h⟩ | ⟨e, h⟩ <;> rw [e]
  · exact .inl ⟨rfl, by omega⟩
  · exact .inl ⟨rfl, h⟩
  · exact .inr (.inr ⟨rfl, .inl h⟩)
  · exact .inr (.inl ⟨rfl, h⟩)
  · exact .inr (.inr ⟨rfl, .inr h⟩)

theorem storageCell_ram_video (h : a.toNat ≤ 0x8FFFF) : storageCell a = some a.toNat := by
  rcases storageCell_cases a with ⟨e, _⟩ | ⟨_, _⟩ | ⟨_, _⟩
  · exact e
  · omega
  · omega

theorem storageCell_peripheral (h : 0x9FC00 ≤ a.toNat) (h' : a.toNat ≤ 0x9FFFF) :
    storageCell a = some (0x9FC00 + 4 * ((a.toNat - 0x9FC00) / 4)) := by
  rcases storageCell_cases a with ⟨_, _⟩ | ⟨e, _⟩ | ⟨_, _⟩
  · omega
  · exact e
  · omega

theorem storageCell_reserved (h : 0x90000 ≤ a.toNat) (h' : a.toNat ≤ 0x9FBFF) : storageCell a = none := by
  rcases storageCell_cases a with ⟨_, _⟩ | ⟨_, _⟩ | ⟨e, _⟩
  · omega
  · omega
  · exact e

theorem resolve_ne_none (h : a.toNat < 0xA0000) : resolve a ≠ none :=
  fun e => Nat.not_le.2 h ((resolve_eq_none a).1 e)

/-- An address of RAM or VIDEO shares its cell with no other address. -/
theorem sameCell_ram_video (h : a.toNat ≤ 0x8FFFF) (b : Word) :
    (storageCell b ≠ none ∧ storageCell a = storageCell b) ↔ b = a := by
  rw [storageCell_ram_video h, ← BitVec.toNat_inj]
  rcases storageCell_cases b with ⟨e, _⟩ | ⟨e, _⟩ | ⟨e, _⟩ <;> rw [e] <;> simp <;> omega

/-- An address of the peripheral region shares its cell with the addresses of its slot (R25, R26). -/
theorem sameCell_peripheral (h : 0x9FC00 ≤ a.toNat) (h' : a.toNat ≤ 0x9FFFF) (b : Word) :
    (storageCell b ≠ none ∧ storageCell a = storageCell b) ↔ b.toNat / 4 = a.toNat / 4 := by
  rw [storageCell_peripheral h h']
  rcases storageCell_cases b with ⟨e, _⟩ | ⟨e, _⟩ | ⟨e, _⟩ <;> rw [e] <;> simp <;> omega

/-! Byte reads and writes by region. -/

theorem readByte_of_storageCell (m : Memory) {k : Nat} (h : a.toNat < 0xA0000) (hk : storageCell a = some k) :
    readByte m a = some (m.lookup k) := by
  rw [readByte_eq, if_neg (resolve_ne_none h), hk]

theorem readByte_reserved (m : Memory) (h : 0x90000 ≤ a.toNat) (h' : a.toNat ≤ 0x9FBFF) :
    readByte m a = some 0#8 := by
  rw [readByte_eq, if_neg (resolve_ne_none (by omega)), storageCell_reserved h h']

theorem readByte_beyond (m : Memory) (h : 0xA0000 ≤ a.toNat) : readByte m a = none := by
  rw [readByte_eq, if_pos ((resolve_eq_none a).2 h)]

theorem writeByte_reserved (m : Memory) (v : Byte) (h : 0x90000 ≤ a.toNat) (h' : a.toNat ≤ 0x9FBFF) :
    writeByte m a v = some m := by
  rw [writeByte_eq, if_neg (resolve_ne_none (by omega)), storageCell_reserved h h']

theorem writeByte_beyond (m : Memory) (v : Byte) (h : 0xA0000 ≤ a.toNat) : writeByte m a v = none := by
  rw [writeByte_eq, if_pos ((resolve_eq_none a).2 h)]

/-- The addresses of one slot read the same (R25). -/
theorem readByte_slot {b : Word} (m : Memory) (h : 0x9FC00 ≤ a.toNat) (h' : a.toNat ≤ 0x9FFFF)
    (same : b.toNat / 4 = a.toNat / 4) : readByte m b = readByte m a := by
  rw [readByte_of_storageCell m (by omega) (storageCell_peripheral h h'),
    readByte_of_storageCell m (by omega) (storageCell_peripheral (a := b) (by omega) (by omega)),
    show (b.toNat - 0x9FC00) / 4 = (a.toNat - 0x9FC00) / 4 by omega]

/-! A byte access has no other bounds test than its region (R27). -/

theorem memRead_byte_of_some (cap : Nat) {m : Memory} {b : Byte} (h : readByte m a = some b) :
    memRead cap m a .byte = .ok (b.setWidth 32) := by
  simp [memRead, preCheckFails, Width.bytes, readBytes, h]

theorem memRead_byte_of_none (cap : Nat) {m : Memory} (h : readByte m a = none) :
    memRead cap m a .byte = .error (.outOfBounds a) := by
  simp [memRead, preCheckFails, Width.bytes, readBytes, h]

theorem memWrite_byte_of_some (cap : Nat) {m m' : Memory} {v : Word} (h : writeByte m a (v.setWidth 8) = some m') :
    memWrite cap m a .byte v = (m', none) := by
  simp [memWrite, preCheckFails, Width.bytes, writeBytes, h]

theorem memWrite_byte_of_none (cap : Nat) {m : Memory} {v : Word} (h : writeByte m a (v.setWidth 8) = none) :
    memWrite cap m a .byte v = (m, some (.outOfBounds a)) := by
  simp [memWrite, preCheckFails, Width.bytes, writeBytes, h]

/-- A host's byte write below 0xA0000 completes, and leaves the byte at the addresses of the written cell (R26). -/
theorem hostWrite_byte_below {s : State} (hs : Inv s) (v : Word) (h : a.toNat < 0xA0000) :
    ∃ t, s.hostWrite a .byte v = (t, none) ∧ ∀ b, t.byteAt b =
      if storageCell b ≠ none ∧ storageCell a = storageCell b then some (v.setWidth 8) else s.byteAt b := by
  obtain ⟨m, e⟩ := writeByte_isSome s.mem a (v.setWidth 8) h
  exact ⟨{ s with mem := m }, by rw [State.hostWrite, memWrite_byte_of_some _ e], readByte_writeByte hs.memory e⟩

end Region

/-- Settles O25, by the five rows of the address decoder. -/
theorem everyAddressHasOneRegionOrNone : Obligations.EveryAddressHasOneRegionOrNone := by
  intro a
  have fails (e : resolve a = none) (cap : Nat) (m : Memory) (v : Word) :
      memRead cap m a .byte = .error (.outOfBounds a) ∧ memWrite cap m a .byte v = (m, some (.outOfBounds a)) := by
    have beyond := (resolve_eq_none a).1 e
    exact ⟨memRead_byte_of_none cap (readByte_beyond m beyond), memWrite_byte_of_none cap (writeByte_beyond m _ beyond)⟩
  rcases resolve_cases a with ⟨e, _⟩ | ⟨e, _⟩ | ⟨e, _⟩ | ⟨e, _⟩ | ⟨e, _⟩ <;>
    refine ⟨?_, ?_, ?_, ?_, ?_, fails⟩ <;> simp only [e, Option.some.injEq, reduceCtorEq, true_iff, false_iff] <;> omega

/-- Settles O52, region by region, and by the one cell of a slot. -/
theorem readByteByRegion : Obligations.ReadByteByRegion := by
  refine ⟨fun a cap m => ⟨fun h => ?_, fun h h' => ?_, fun h h' => ?_, fun h => ?_⟩, fun s k j hk hj => ?_⟩
  · exact memRead_byte_of_some cap (readByte_of_storageCell m (by omega) (storageCell_ram_video h))
  · exact memRead_byte_of_some cap (readByte_reserved m h h')
  · exact memRead_byte_of_some cap (readByte_of_storageCell m (by omega) (storageCell_peripheral h h'))
  · exact memRead_byte_of_none cap (readByte_beyond m h)
  · have first : (BitVec.ofNat 32 (0x9FC00 + 4 * k)).toNat = 0x9FC00 + 4 * k := by rw [BitVec.toNat_ofNat]; omega
    have other : (BitVec.ofNat 32 (0x9FC00 + 4 * k + j)).toNat = 0x9FC00 + 4 * k + j := by
      rw [BitVec.toNat_ofNat]; omega
    exact readByte_slot s.mem (by omega) (by omega) (by omega)

/-- Settles O53, region by region: which addresses share the written cell. -/
theorem writeByteByRegion : Obligations.WriteByteByRegion := by
  intro a v s hs
  refine ⟨fun h => ?_, fun h h' => ?_, fun h => ?_, fun h h' => ?_⟩
  · rw [State.hostWrite, memWrite_byte_of_none _ (writeByte_beyond s.mem _ h)]
  · rw [State.hostWrite, memWrite_byte_of_some _ (writeByte_reserved s.mem _ h h')]
  · obtain ⟨t, e, bytes⟩ := hostWrite_byte_below hs v (show a.toNat < 0xA0000 by omega)
    simp only [sameCell_ram_video h] at bytes
    exact ⟨t, e, bytes⟩
  · obtain ⟨t, e, bytes⟩ := hostWrite_byte_below hs v (show a.toNat < 0xA0000 by omega)
    simp only [sameCell_peripheral h h'] at bytes
    exact ⟨t, e, bytes⟩

end Sys2Proof.Machine

namespace Sys2Proof

/-! The bytes of a word. -/

/-- A word is put together again from its four bytes (R30). -/
theorem wordOfBytes_extract (w : Word) :
    wordOfBytes (w.extractLsb' 0 8) (w.extractLsb' 8 8) (w.extractLsb' 16 8) (w.extractLsb' 24 8) = w := by
  unfold wordOfBytes
  rw [extract_join w 16 8 8, extract_join w 8 16 8, extract_join w 0 24 8]
  exact extract_whole w

theorem decodeBytes_bytesOfWord (w : Word) (rest : List Byte) :
    decodeBytes (bytesOfWord w ++ rest) = (decodeWord w).map fun i => (i, rest) := by
  simp only [bytesOfWord, List.cons_append, List.nil_append, decodeBytes, wordOfBytes_extract]

/-- The table's 32-bit number of a word is the word's own. -/
theorem tableWord_toNat (w : Word) : tableWord 32 w.toNat = w := by
  rw [tableWord, Nat.mod_eq_of_lt w.isLt, BitVec.ofNat_toNat, BitVec.setWidth_eq]

/-- Settles O6, by putting the word together again from its bytes. -/
theorem bytesOfAWordDecodeAsTheWord : Obligations.BytesOfAWordDecodeAsTheWord := by
  refine fun w rest => ⟨decodeBytes_bytesOfWord w rest, ?_⟩
  rw [decodeTableWord, tableWord_toNat, ← List.append_nil (bytesOfWord w), decodeBytes_bytesOfWord]
  cases decodeWord w <;> rfl

end Sys2Proof
end

