-- ==== Sys2Proof/Proofs/MemoryAccesses.lean ====
section
/-! SUPPORT. The halfword and word accesses (20_memory.md R27 to R34): the pre-check, a write that completes, a read as
a number, the reserved region, a word in RAM or VIDEO, and the bytes that end in a peripheral slot. -/

namespace Sys2Proof.Machine

/-! The pre-check (R27). -/

theorem preCheckFails_of_le {cap : Nat} {a : Word} {n : Width} (h : a.toNat + n.bytes ≤ cap) :
    preCheckFails cap a n = false := by
  cases n with
  | byte => rfl
  | half => exact decide_eq_false (by simp only [Width.bytes] at h; omega)
  | word => exact decide_eq_false (by simp only [Width.bytes] at h; omega)

theorem memRead_of_passes {cap : Nat} {m : Memory} {a : Word} {n : Width} (h : preCheckFails cap a n = false) :
    memRead cap m a n = readBytes m a n.bytes := by
  simp [memRead, h]

theorem memWrite_of_passes {cap : Nat} {m : Memory} {a v : Word} {n : Width} (h : preCheckFails cap a n = false) :
    memWrite cap m a n v = writeBytes m a v n.bytes := by
  simp [memWrite, h]

theorem memWrite_of_preCheckFails {cap : Nat} {m : Memory} {a v : Word} {n : Width} (h : preCheckFails cap a n = true) :
    memWrite cap m a n v = (m, some (.outOfBounds a)) := by
  simp [memWrite, h]

/-! Writes below 0xA0000. -/

theorem Inv.withMem {s : State} (hs : Inv s) {m : Memory} (hm : m.wf) : Inv { s with mem := m } :=
  ⟨hm, hs.capacity, hs.bus⟩

/-- A write whose bytes all have a region completes, and is the byte writes of a store (R29). -/
theorem memWrite_below {s : State} (hs : Inv s) {a : Word} {n : Width} (v : Word) (h : a.toNat + n.bytes ≤ 0xA0000) :
    ∃ m, memWrite s.capacity s.mem a n v = (m, none) ∧ m.wf ∧
      ∀ b, readByte m b = afterWrites s b (storeBytes a v n) := by
  rw [memWrite_of_passes (preCheckFails_of_le (h.trans hs.capacity)), storeBytes_eq]
  exact writeBytes_below n.bytes s.mem a v hs.memory h

/-- The same of a host's write (R142). -/
theorem hostWrite_below {s : State} (hs : Inv s) {a : Word} {n : Width} (v : Word) (h : a.toNat + n.bytes ≤ 0xA0000) :
    ∃ t, s.hostWrite a n v = (t, none) ∧ Inv t ∧ ∀ b, t.byteAt b = afterWrites s b (storeBytes a v n) := by
  obtain ⟨m, e, wf, bytes⟩ := memWrite_below hs v h
  exact ⟨{ s with mem := m }, by rw [State.hostWrite, e], hs.withMem wf, bytes⟩

/-! The number of a byte, and reads as numbers. -/

theorem u32_natCast (n : Nat) : u32 (n : Int) = BitVec.ofNat 32 n := BitVec.ofInt_natCast 32 n

theorem eq_u32_of_toNat {v : Word} {n : Nat} (h : v.toNat = n) : v = u32 n := by
  rw [u32_natCast, ← h, BitVec.ofNat_toNat, BitVec.setWidth_eq]

theorem State.byteNat_of_byteAt {s : State} {a : Word} {b : Byte} (h : s.byteAt a = some b) :
    s.byteNat a = b.toNat := by
  rw [State.byteNat, h]

/-- Every address with a region reads a byte, whose number is `byteNat`'s (R25). -/
theorem State.byteAt_below (s : State) {a : Word} (h : a.toNat < 0xA0000) :
    ∃ b, s.byteAt a = some b ∧ s.byteNat a = b.toNat := by
  have ⟨b, e⟩ : ∃ b, s.byteAt a = some b := by
    rw [State.byteAt, readByte_eq, if_neg (resolve_ne_none h)]
    split <;> exact ⟨_, rfl⟩
  exact ⟨b, e, State.byteNat_of_byteAt e⟩

/-- A halfword read, little-endian (R28, R30). -/
theorem memRead_half_below {s : State} (hc : Config.minCapacity ≤ s.capacity) {a : Word} (h : a.toNat + 2 ≤ 0xA0000) :
    memRead s.capacity s.mem a .half = .ok (u32 (s.byteNat a + 2 ^ 8 * s.byteNat (a + 1#32) : Nat)) := by
  have n1 := toNat_add_ofNat a 1 (by omega)
  obtain ⟨b0, e0, v0⟩ := s.byteAt_below (show a.toNat < 0xA0000 by omega)
  obtain ⟨b1, e1, v1⟩ := s.byteAt_below (show (a + 1#32).toNat < 0xA0000 by omega)
  obtain ⟨v, e, hv⟩ := readBytes_two e0 e1
  rw [memRead_of_passes (preCheckFails_of_le (h.trans hc)), v0, v1, ← eq_u32_of_toNat hv]
  exact e

/-- A word read, little-endian (R28, R30). -/
theorem memRead_word_below {s : State} (hc : Config.minCapacity ≤ s.capacity) {a : Word} (h : a.toNat + 4 ≤ 0xA0000) :
    memRead s.capacity s.mem a .word = .ok (u32 (s.byteNat a + 2 ^ 8 * s.byteNat (a + 1#32) +
      2 ^ 16 * s.byteNat (a + 2#32) + 2 ^ 24 * s.byteNat (a + 3#32) : Nat)) := by
  have n1 := toNat_add_ofNat a 1 (by omega)
  have n2 := toNat_add_ofNat a 2 (by omega)
  have n3 := toNat_add_ofNat a 3 (by omega)
  obtain ⟨b0, e0, v0⟩ := s.byteAt_below (show a.toNat < 0xA0000 by omega)
  obtain ⟨b1, e1, v1⟩ := s.byteAt_below (show (a + 1#32).toNat < 0xA0000 by omega)
  obtain ⟨b2, e2, v2⟩ := s.byteAt_below (show (a + 2#32).toNat < 0xA0000 by omega)
  obtain ⟨b3, e3, v3⟩ := s.byteAt_below (show (a + 3#32).toNat < 0xA0000 by omega)
  obtain ⟨v, e, hv⟩ := readBytes_four e0 e1 e2 e3
  rw [memRead_of_passes (preCheckFails_of_le (h.trans hc)), v0, v1, v2, v3, ← eq_u32_of_toNat hv]
  exact e

/-! The reserved region (R34). -/

theorem readBytes_reserved (n : Nat) (m : Memory) (a : Word) (h : 0x90000 ≤ a.toNat) (h' : a.toNat + n ≤ 0x9FC00) :
    readBytes m a n = .ok 0#32 := by
  induction n generalizing a with
  | zero => rfl
  | succ n ih =>
    have next := toNat_add_ofNat a 1 (by omega)
    rw [readBytes, readByte_reserved m h (by omega)]
    simp only [ih (a + 1#32) (by omega) (by omega)]
    rfl

theorem writeBytes_reserved (n : Nat) (m : Memory) (a v : Word) (h : 0x90000 ≤ a.toNat) (h' : a.toNat + n ≤ 0x9FC00) :
    writeBytes m a v n = (m, none) := by
  induction n generalizing a v with
  | zero => rfl
  | succ n ih =>
    have next := toNat_add_ofNat a 1 (by omega)
    rw [writeBytes, writeByte_reserved m _ h (by omega)]
    exact ih (a + 1#32) (v >>> 8) (by omega) (by omega)

/-- Settles O28, by induction over the bytes of the access. -/
theorem reservedRegionIsADeadZone : Obligations.ReservedRegionIsADeadZone := by
  intro a v n s hc h h'
  have passes : preCheckFails s.capacity a n = false :=
    preCheckFails_of_le (by unfold Config.minCapacity at hc; omega)
  constructor
  · rw [State.hostWrite, memWrite_of_passes passes, writeBytes_reserved n.bytes s.mem a v h h']
  · rw [State.hostRead, memRead_of_passes passes, readBytes_reserved n.bytes s.mem a h h']

/-! A word in RAM or VIDEO (R30). -/

/-- The four bytes at `a` are those of the word `w`: what `AtPc` says of the pc. -/
def HoldsWord (s : State) (a w : Word) : Prop := AtPc { s with pc := a } w

theorem holdsWord_pc {s : State} {w : Word} : HoldsWord s s.pc w ↔ AtPc s w := Iff.rfl

/-- A word that memory holds is the one a word access reads. -/
theorem memRead_of_holdsWord {s : State} (hc : Config.minCapacity ≤ s.capacity) {a w : Word} (h : a.toNat + 4 ≤ 0xA0000)
    (held : HoldsWord s a w) : memRead s.capacity s.mem a .word = .ok w :=
  memRead_atPc (s := { s with pc := a, status := .running })
    ⟨rfl, hc, show a.toNat + 3 < s.capacity by unfold Config.minCapacity at hc; omega⟩ held

/-- The bytes of a word store in RAM or VIDEO do not fall together. -/
theorem holdsWord_of_storeBytes {s t : State} {a v : Word} (h : a.toNat ≤ 0x8FFFC)
    (bytes : ∀ b, t.byteAt b = afterWrites s b (storeBytes a v .word)) : HoldsWord t a v := by
  have n1 := toNat_add_ofNat a 1 (by omega)
  have n2 := toNat_add_ofNat a 2 (by omega)
  have n3 := toNat_add_ofNat a 3 (by omega)
  have read (b : Word) : t.byteAt b = if b = a + 3#32 then some (v.extractLsb' 24 8) else
      if b = a + 2#32 then some (v.extractLsb' 16 8) else if b = a + 1#32 then some (v.extractLsb' 8 8) else
      if b = a then some (v.extractLsb' 0 8) else s.byteAt b := by
    simp only [bytes, afterWrites, storeBytes, List.foldl_cons, List.foldl_nil,
      sameCell_ram_video (a := a) (by omega), sameCell_ram_video (a := a + 1#32) (by omega),
      sameCell_ram_video (a := a + 2#32) (by omega), sameCell_ram_video (a := a + 3#32) (by omega)]
  refine ⟨(read a).trans ?_, (read (a + 1#32)).trans ?_, (read (a + 2#32)).trans ?_, (read (a + 3#32)).trans ?_⟩ <;>
    simp

/-! The peripheral slots (R33; D13, log 8). -/

/-- What an address reads after a word store in the peripheral region: the last byte that falls in its slot. -/
theorem afterWrites_word_peripheral (s : State) {x : Word} (v : Word) (h : 0x9FC00 ≤ x.toNat)
    (h' : x.toNat + 3 ≤ 0x9FFFF) (b : Word) : afterWrites s b (storeBytes x v .word) =
      if b.toNat / 4 = (x.toNat + 3) / 4 then some (v.extractLsb' 24 8)
      else if b.toNat / 4 = (x.toNat + 2) / 4 then some (v.extractLsb' 16 8)
      else if b.toNat / 4 = (x.toNat + 1) / 4 then some (v.extractLsb' 8 8)
      else if b.toNat / 4 = x.toNat / 4 then some (v.extractLsb' 0 8) else s.byteAt b := by
  have n1 : (x + 1#32).toNat = x.toNat + 1 := toNat_add_ofNat x 1 (by omega)
  have n2 : (x + 2#32).toNat = x.toNat + 2 := toNat_add_ofNat x 2 (by omega)
  have n3 : (x + 3#32).toNat = x.toNat + 3 := toNat_add_ofNat x 3 (by omega)
  simp only [afterWrites, storeBytes, List.foldl_cons, List.foldl_nil,
    sameCell_peripheral (a := x) h (by omega), sameCell_peripheral (a := x + 1#32) (by omega) (by omega),
    sameCell_peripheral (a := x + 2#32) (by omega) (by omega),
    sameCell_peripheral (a := x + 3#32) (by omega) (by omega), n1, n2, n3]

/-- The same of a halfword store. -/
theorem afterWrites_half_peripheral (s : State) {x : Word} (v : Word) (h : 0x9FC00 ≤ x.toNat)
    (h' : x.toNat + 1 ≤ 0x9FFFF) (b : Word) : afterWrites s b (storeBytes x v .half) =
      if b.toNat / 4 = (x.toNat + 1) / 4 then some (v.extractLsb' 8 8)
      else if b.toNat / 4 = x.toNat / 4 then some (v.extractLsb' 0 8) else s.byteAt b := by
  have n1 : (x + 1#32).toNat = x.toNat + 1 := toNat_add_ofNat x 1 (by omega)
  simp only [afterWrites, storeBytes, List.foldl_cons, List.foldl_nil,
    sameCell_peripheral (a := x) h (by omega), sameCell_peripheral (a := x + 1#32) (by omega) (by omega), n1]

/-- The number of a written byte, as a part of the word it is from. -/
theorem State.byteNat_of_extract {t : State} {b v : Word} {k : Nat} (h : t.byteAt b = some (v.extractLsb' k 8)) :
    t.byteNat b = v.toNat / 2 ^ k % 2 ^ 8 := by
  rw [State.byteNat_of_byteAt h, BitVec.extractLsb'_toNat, Nat.shiftRight_eq_div_pow]

theorem top_byte (v : Word) : v.toNat / 2 ^ 24 % 2 ^ 8 = v.toNat / 2 ^ 24 := by
  have := v.isLt
  omega

section Slot
variable {k : Nat} (hk : k < 256)

/-- The first address of slot `k` (R25). -/
def slotBase (k : Nat) : Word := u32 (0x9FC00 + 4 * k : Nat)

include hk

theorem slotBase_toNat : (slotBase k).toNat = 0x9FC00 + 4 * k := by
  rw [slotBase, u32_natCast, BitVec.toNat_ofNat]
  omega

theorem slotBase_add_toNat {j : Nat} (hj : j ≤ 4) : (slotBase k + BitVec.ofNat 32 j).toNat = 0x9FC00 + 4 * k + j := by
  rw [toNat_add_ofNat _ _ (by rw [slotBase_toNat hk]; omega), slotBase_toNat hk]

theorem byteNat_slot (t : State) {b : Word} (h : b.toNat / 4 = (0x9FC00 + 4 * k) / 4) :
    t.byteNat b = t.byteNat (slotBase k) := by
  have base := slotBase_toNat hk
  rw [State.byteNat, State.byteNat, State.byteAt, State.byteAt,
    readByte_slot t.mem (a := slotBase k) (by omega) (by omega) (by omega)]

/-- A word read of a slot gives its byte four times. -/
theorem hostRead_word_slot {t : State} (ht : Inv t) :
    t.hostRead (slotBase k) .word = .ok (u32 (t.byteNat (slotBase k) * 0x01010101 : Nat)) := by
  have base := slotBase_toNat hk
  have n1 := slotBase_add_toNat hk (j := 1) (by omega)
  have n2 := slotBase_add_toNat hk (j := 2) (by omega)
  have n3 := slotBase_add_toNat hk (j := 3) (by omega)
  rw [State.hostRead, memRead_word_below ht.capacity (by omega), byteNat_slot hk t (b := _ + 1#32) (by omega),
    byteNat_slot hk t (b := _ + 2#32) (by omega), byteNat_slot hk t (b := _ + 3#32) (by omega)]
  congr 3
  omega

/-- A halfword read inside a slot gives its byte twice. -/
theorem hostRead_half_slot {t : State} (ht : Inv t) {j : Nat} (hj : j ≤ 2) :
    t.hostRead (slotBase k + BitVec.ofNat 32 j) .half = .ok (u32 (t.byteNat (slotBase k) * 0x0101 : Nat)) := by
  have n := slotBase_add_toNat hk (j := j) (by omega)
  have n1 := toNat_add_ofNat (slotBase k + BitVec.ofNat 32 j) 1 (by omega)
  rw [State.hostRead, memRead_half_below ht.capacity (by omega),
    byteNat_slot hk t (b := slotBase k + BitVec.ofNat 32 j) (by omega), byteNat_slot hk t (b := _ + 1#32) (by omega)]
  congr 3
  omega

/-- A word store at or across a slot: the slot keeps the last of the bytes that fall in it. -/
theorem hostWrite_word_slot {s : State} (hs : Inv s) (v : Word) {j : Nat} (hj : j ≤ 3) (h : 4 * k + j ≤ 0x3FC) :
    ∃ t, s.hostWrite (slotBase k + BitVec.ofNat 32 j) .word v = (t, none) ∧ Inv t ∧
      t.byteNat (slotBase k) = v.toNat / 2 ^ (8 * (3 - j)) % 2 ^ 8 ∧
      (1 ≤ j → t.byteNat (slotBase k + 4#32) = v.toNat / 2 ^ 24) := by
  have base := slotBase_toNat hk
  have n := slotBase_add_toNat hk (j := j) (by omega)
  have n4 := slotBase_add_toNat hk (j := 4) (by omega)
  obtain ⟨t, e, ht, bytes⟩ := hostWrite_below hs (n := .word) (a := slotBase k + BitVec.ofNat 32 j) v
    (by simp only [Width.bytes]; omega)
  simp only [afterWrites_word_peripheral s v (x := slotBase k + BitVec.ofNat 32 j) (by omega) (by omega), n] at bytes
  refine ⟨t, e, ht, State.byteNat_of_extract ((bytes _).trans ?_), fun h1 => ?_⟩
  · rw [base]
    obtain rfl | rfl | rfl | rfl : j = 0 ∨ j = 1 ∨ j = 2 ∨ j = 3 := by omega
    · rw [if_pos (by omega)]
    · rw [if_neg (by omega), if_pos (by omega)]
    · rw [if_neg (by omega), if_neg (by omega), if_pos (by omega)]
    · rw [if_neg (by omega), if_neg (by omega), if_neg (by omega), if_pos (by omega)]
  · rw [State.byteNat_of_extract ((bytes _).trans (if_pos (by omega))), top_byte]

/-- A halfword store inside a slot: the slot keeps the upper byte. -/
theorem hostWrite_half_slot {s : State} (hs : Inv s) (v : Word) {j : Nat} (hj : j ≤ 2) :
    ∃ t, s.hostWrite (slotBase k + BitVec.ofNat 32 j) .half v = (t, none) ∧ Inv t ∧
      t.byteNat (slotBase k) = v.toNat / 2 ^ 8 % 2 ^ 8 := by
  have base := slotBase_toNat hk
  have n := slotBase_add_toNat hk (j := j) (by omega)
  obtain ⟨t, e, ht, bytes⟩ := hostWrite_below hs (n := .half) (a := slotBase k + BitVec.ofNat 32 j) v
    (by simp only [Width.bytes]; omega)
  simp only [afterWrites_half_peripheral s v (x := slotBase k + BitVec.ofNat 32 j) (by omega) (by omega)] at bytes
  exact ⟨t, e, ht, State.byteNat_of_extract ((bytes _).trans (if_pos (by omega)))⟩

/-- A halfword store across a slot and the next: one byte in each. -/
theorem hostWrite_half_straddling {s : State} (hs : Inv s) (v : Word) (h : k < 255) :
    ∃ t, s.hostWrite (slotBase k + 3#32) .half v = (t, none) ∧ t.byteNat (slotBase k) = v.toNat % 2 ^ 8 ∧
      t.byteNat (slotBase k + 4#32) = v.toNat / 2 ^ 8 % 2 ^ 8 := by
  have base := slotBase_toNat hk
  have n3 := slotBase_add_toNat hk (j := 3) (by omega)
  have n4 := slotBase_add_toNat hk (j := 4) (by omega)
  obtain ⟨t, e, _, bytes⟩ := hostWrite_below hs (n := .half) (a := slotBase k + 3#32) v
    (by simp only [Width.bytes]; omega)
  simp only [afterWrites_half_peripheral s v (x := slotBase k + 3#32) (by omega) (by omega)] at bytes
  refine ⟨t, e, ?_, State.byteNat_of_extract ((bytes _).trans (if_pos (by omega)))⟩
  rw [State.byteNat_of_extract ((bytes _).trans ((if_neg (by omega)).trans (if_pos (by omega)))), pow_zero, Nat.div_one]

end Slot

/-- Settles O27: reads give the slot's byte for each byte of the access, and writes leave the last byte that falls in
the slot. -/
theorem peripheralSlotsKeepTheLastByte : Obligations.PeripheralSlotsKeepTheLastByte := by
  intro k v s hs hk
  refine ⟨fun t ht => ⟨hostRead_word_slot hk ht, fun j hj => hostRead_half_slot hk ht hj⟩, ?_, fun j hj => ?_,
    fun hk' => ⟨fun j h1 h3 => ?_, hostWrite_half_straddling hk hs v hk'⟩⟩
  · obtain ⟨t, e, ht, low, _⟩ := hostWrite_word_slot hk hs v (j := 0) (by omega) (by omega)
    rw [BitVec.add_zero] at e
    rw [top_byte] at low
    exact ⟨t, e, low, low ▸ hostRead_word_slot hk ht⟩
  · obtain ⟨t, e, ht, low⟩ := hostWrite_half_slot hk hs v hj
    exact ⟨t, e, low, fun i hi => low ▸ hostRead_half_slot hk ht hi⟩
  · obtain ⟨t, e, _, low, high⟩ := hostWrite_word_slot hk hs v h3 (by omega)
    exact ⟨t, e, low, high h1⟩

end Sys2Proof.Machine
end

