-- ==== Sys2Proof/Proofs/StoreInstructions.lean ====
section
/-! SUPPORT. The store instructions over the memory accesses: where they complete, where they fault and what they have
written by then (20_memory.md R29, 43_loads_stores.md R105), and a stored word read or fetched afterwards (R30, R38). -/

namespace Sys2Proof.Machine

/-! How a load and a store end, from the end of the memory call. -/

section Instruction
variable {s : State} {n : Width} {rs1 rs2 : RegIdx} {imm : Word} {m : Memory}

theorem storeFrom_of_done (h : memWrite s.capacity s.mem (s.readReg rs1 + imm) n (s.readReg rs2) = (m, none)) :
    storeFrom n rs1 rs2 imm s = .next ({ s with mem := m }.busDone (s.readReg rs1 + imm)
      (n.truncate (s.readReg rs2))).advancePc := by
  simp only [storeFrom, busWrite, effectiveAddress, h, complete_fallThrough]

theorem storeFrom_of_failed {f : FaultCause}
    (h : memWrite s.capacity s.mem (s.readReg rs1 + imm) n (s.readReg rs2) = (m, some f)) :
    storeFrom n rs1 rs2 imm s = .next (({ s with mem := m }.busFailed (s.readReg rs1 + imm)).takeFault f) := by
  simp only [storeFrom, busWrite, effectiveAddress, h, complete_fault]

theorem loadInto_of_done {ext : Word → Word} {rd : RegIdx} {v : Word}
    (h : memRead s.capacity s.mem (s.readReg rs1 + imm) n = .ok v) :
    loadInto n ext rd rs1 imm s = .next ((s.busDone (s.readReg rs1 + imm) v).writeReg rd (ext v)).advancePc := by
  simp only [loadInto, busRead, effectiveAddress, h, complete_fallThrough]

/-- A store whose memory call fails faults with the call's cause and keeps what the call wrote (R105, R131). -/
theorem storeFrom_accessFaults {f : FaultCause} {ws : List (Word × Byte)}
    (h : memWrite s.capacity s.mem (s.readReg rs1 + imm) n (s.readReg rs2) = (m, some f))
    (bytes : ∀ b, readByte m b = afterWrites s b ws) :
    AccessFaults s (storeFrom n rs1 rs2 imm s) (s.readReg rs1 + imm) f ws :=
  ⟨_, storeFrom_of_failed h, rfl, rfl, fun _ => rfl, bytes, rfl, rfl, rfl⟩

/-- A store that fails its pre-check writes nothing (R27). -/
theorem storeFrom_of_preCheckFails (h : preCheckFails s.capacity (s.readReg rs1 + imm) n = true) :
    AccessFaults s (storeFrom n rs1 rs2 imm s) (s.readReg rs1 + imm) (.outOfBounds (s.readReg rs1 + imm)) [] :=
  storeFrom_accessFaults (memWrite_of_preCheckFails h) fun _ => rfl

end Instruction

/-- Settles O23, by the pre-check of SH and SW, and the one byte of SB. -/
theorem storesFailingBeforeTheFirstByte : Obligations.StoresFailingBeforeTheFirstByte :=
  fun _ _ _ s => ⟨fun h => storeFrom_accessFaults (memWrite_byte_of_none _ (writeByte_beyond s.mem _ h)) fun _ => rfl,
    fun h => storeFrom_of_preCheckFails (decide_eq_true h), fun h => storeFrom_of_preCheckFails (decide_eq_true h)⟩

/-! A write that reaches 0xA0000 (R29). -/

theorem byteWrites_take (a v : Word) {k n : Nat} (h : k ≤ n) : (byteWrites a v n).take k = byteWrites a v k := by
  induction k generalizing a v n with
  | zero => rfl
  | succ k ih =>
    cases n with
    | zero => omega
    | succ n => rw [byteWrites, List.take_succ_cons, ih _ _ (Nat.le_of_succ_le_succ h), byteWrites]

theorem writeBytes_beyond (n : Nat) (m : Memory) {a : Word} (v : Word) (h : 0xA0000 ≤ a.toNat) :
    writeBytes m a v (n + 1) = (m, some (.outOfBounds a)) := by
  rw [writeBytes, writeByte_beyond m _ h]

/-- The write fails at its first byte with no region, with exactly the bytes below 0xA0000 written, whether it starts
below 0xA0000 or not. -/
theorem memWrite_reaching {s : State} (hs : Inv s) {a : Word} {n : Width} (v : Word)
    (passes : preCheckFails s.capacity a n = false) (h : 0xA0000 < a.toNat + n.bytes) :
    ∃ m, memWrite s.capacity s.mem a n v = (m, some (.outOfBounds (u32 (max a.toNat 0xA0000 : Nat)))) ∧
      ∀ b, readByte m b = afterWrites s b ((storeBytes a v n).take (0xA0000 - a.toNat)) := by
  obtain ⟨k, hk⟩ : ∃ k, n.bytes = k + 1 := by cases n <;> exact ⟨_, rfl⟩
  rw [memWrite_of_passes passes, storeBytes_eq, byteWrites_take a v (by omega), hk]
  rcases Nat.le_total a.toNat 0xA0000 with below | beyond
  · obtain ⟨m, e, _, bytes⟩ := writeBytes_reaching k s.mem a v hs.memory below (by omega)
    rw [Nat.max_eq_right below, u32_natCast]
    exact ⟨m, e, bytes⟩
  · rw [Nat.max_eq_left beyond, ← eq_u32_of_toNat rfl, Nat.sub_eq_zero_of_le beyond]
    exact ⟨s.mem, writeBytes_beyond k s.mem v beyond, fun _ => rfl⟩

/-- Settles O24, by the write that reaches 0xA0000. -/
theorem storesFailingAtAByteKeepTheBytesBefore : Obligations.StoresFailingAtAByteKeepTheBytesBefore := by
  intro rs1 rs2 imm s hs a v firstBad
  refine ⟨fun below reaches => ?_, fun below reaches => ?_⟩
  · obtain ⟨_, e, bytes⟩ := memWrite_reaching hs (a := a) (n := .half) v (preCheckFails_of_le below)
      (Nat.lt_succ_of_le reaches)
    exact storeFrom_accessFaults e bytes
  · obtain ⟨_, e, bytes⟩ := memWrite_reaching hs (a := a) (n := .word) v (preCheckFails_of_le below)
      (Nat.lt_succ_of_le reaches)
    exact storeFrom_accessFaults e bytes

/-! A stored word, read back and fetched. -/

/-- SW in RAM or VIDEO leaves the word at its address, and completes. -/
theorem exec_sw_holdsWord {s : State} (hs : Inv s) {rs1 rs2 : RegIdx} {imm : Word}
    (h : (s.readReg rs1 + imm).toNat ≤ 0x8FFFC) :
    ∃ t, exec (.sw rs1 rs2 imm) s = .next t ∧ t.pc = s.pc + 4#32 ∧ t.status = s.status ∧ t.capacity = s.capacity ∧
      SameRegs s t ∧ HoldsWord t (s.readReg rs1 + imm) (s.readReg rs2) := by
  obtain ⟨m, e, _, bytes⟩ := memWrite_below hs (n := .word) (a := s.readReg rs1 + imm) (s.readReg rs2)
    (by simp only [Width.bytes]; omega)
  exact ⟨_, storeFrom_of_done e, rfl, rfl, rfl, fun _ => rfl, holdsWord_of_storeBytes h bytes⟩

/-- A step of a machine that fetches a word which decodes is that instruction after the fetch (R63, R66). -/
theorem step_of_atPc {s : State} {w : Word} {i : Instr} (hf : Fetching s) (held : AtPc s w)
    (hd : decodeWord w = .ok i) : step s = exec i (s.busDone s.pc w) := by
  have read := memRead_atPc hf held
  obtain ⟨running, _, space⟩ := hf
  rcases step_cases s with ⟨low, _⟩ | ⟨_, stopped, _⟩ |
    ⟨_, _, ⟨full, _⟩ | ⟨_, ⟨_, failed, _⟩ | ⟨_, _, fetched, rejected, _⟩ | ⟨_, _, fetched, decoded, e⟩⟩⟩
  · omega
  · exact absurd running stopped
  · omega
  · cases read.symm.trans failed
  · cases read.symm.trans fetched
    cases hd.symm.trans rejected
  · cases read.symm.trans fetched
    cases hd.symm.trans decoded
    exact e

/-- Settles O50: the stored word stands at the pc of the next step. -/
theorem aStoredWordIsFetchedNext : Obligations.AStoredWordIsFetchedNext := by
  intro rs1 rs2 imm i s hs running target inside hd
  obtain ⟨t, e, pc, status, cap, _, held⟩ := exec_sw_holdsWord hs (target ▸ inside)
  rw [target, ← pc, holdsWord_pc] at held
  have space : t.pc.toNat + 3 < t.capacity := by
    have := hs.capacity
    unfold Config.minCapacity at this
    rw [pc, cap]
    omega
  exact ⟨t, e, pc, step_of_atPc ⟨status.trans running, cap ▸ hs.capacity, space⟩ held hd⟩

/-- Settles O26: the word is held, so the accessor and LW read it. -/
theorem ramAndVideoWordsReadBack : Obligations.RamAndVideoWordsReadBack := by
  intro a v s hs h
  constructor
  · obtain ⟨t, e, ht, bytes⟩ := hostWrite_below hs (n := .word) v (show a.toNat + 4 ≤ _ by omega)
    exact ⟨t, e, memRead_of_holdsWord ht.capacity (by omega) (holdsWord_of_storeBytes h bytes)⟩
  · rintro rd rs1 rs2 imm rfl rfl
    obtain ⟨t, e, _, _, cap, regs, held⟩ := exec_sw_holdsWord hs h (rs2 := rs2)
    have read := memRead_of_holdsWord (cap ▸ hs.capacity) (by omega) held
    refine ⟨t, _, e, loadInto_of_done (regs rs1 ▸ read), fun r => ?_⟩
    rw [State.advancePc_readReg, State.readReg_writeReg, State.busDone_readReg, regs]
    rfl

end Sys2Proof.Machine
end

