-- ==== Sys2Proof/Proofs/Immediates.lean ====
section
/-! SUPPORT. The immediates of the formats (30_encoding.md R45 to R50): their ranges, and their numbers. -/

namespace Sys2Proof

open Machine

/-- Low bits are the same before and after sign extension. -/
theorem extract_signExtend {n start len : Nat} (x : BitVec n) (h : start + len ≤ n) (h32 : n ≤ 32) :
    (x.signExtend 32).extractLsb' start len = x.extractLsb' start len := by
  ext i hi
  simp only [BitVec.getElem_extractLsb', BitVec.getLsbD_signExtend]
  rw [decide_eq_true (by omega), if_pos (by omega), Bool.true_and]

/-- A field of a field. -/
theorem extract_extract {n start len start' len' : Nat} (x : BitVec n) (h : start' + len' ≤ len) :
    (x.extractLsb' start len).extractLsb' start' len' = x.extractLsb' (start + start') len' := by
  ext i hi
  simp only [BitVec.getElem_extractLsb', BitVec.getLsbD_extractLsb']
  rw [decide_eq_true (by omega), Bool.true_and, Nat.add_assoc]

/-- The signed number of a field: less `2 ^ (n + 1)` when its top bit is set. -/
theorem toInt_eq_toNat_sub {n : Nat} (x : BitVec (n + 1)) :
    x.toInt = (x.toNat : Nat) - (x.toNat / 2 ^ n * 2 ^ (n + 1) : Nat) := by
  have bound := x.isLt
  rw [Nat.pow_succ] at bound
  rw [BitVec.toInt_eq_toNat_cond, Nat.pow_succ]
  split
  · rw [Nat.div_eq_of_lt (by omega)]; simp
  · rw [Nat.div_eq_of_lt_le (k := 1) (by omega) (by omega)]; simp

/-! What a format can hold is in its range. -/

theorem imm12Ok_signExtend (f : BitVec 12) : imm12Ok (f.signExtend 32) = true := by
  have low := BitVec.le_toInt f
  have high := BitVec.toInt_lt (x := f)
  simp only [imm12Ok, Bool.and_eq_true, decide_eq_true_eq, BitVec.toInt_signExtend_of_le (show 12 ≤ 32 by decide)]
  omega

/-- A field with a zero bit appended is even, and twice its signed number. -/
theorem signExtend_append_zero {n : Nat} (f : BitVec n) (h : n + 1 ≤ 32) :
    ((f ++ 0#1).signExtend 32).toInt = 2 * f.toInt ∧ ((f ++ 0#1).signExtend 32).toNat % 2 = 0 := by
  constructor
  · rw [BitVec.toInt_signExtend_of_le h, BitVec.toInt_append_zero]; rfl
  · have low : ((f ++ 0#1).signExtend 32).extractLsb' 0 1 = 0#1 := by
      rw [extract_signExtend _ (by omega) h, extract_append_right _ _ (by omega), extract_whole]
    simpa using congrArg BitVec.toNat low

theorem immBOk_signExtend (f : BitVec 12) : immBOk ((f ++ 0#1 : BitVec 13).signExtend 32) = true := by
  obtain ⟨twice, even⟩ := signExtend_append_zero f (by decide)
  have low := BitVec.le_toInt f
  have high := BitVec.toInt_lt (x := f)
  simp only [immBOk, Bool.and_eq_true, decide_eq_true_eq, twice, even, and_true]
  omega

theorem immJOk_signExtend (g : BitVec 20) : immJOk ((g ++ 0#1 : BitVec 21).signExtend 32) = true := by
  obtain ⟨twice, even⟩ := signExtend_append_zero g (by decide)
  have low := BitVec.le_toInt g
  have high := BitVec.toInt_lt (x := g)
  simp only [immJOk, Bool.and_eq_true, decide_eq_true_eq, twice, even, and_true]
  omega

/-- The U immediate is the upper 20 bits in place (R49). -/
theorem immU_eq_append (w : Word) : immU w = w.extractLsb' 12 20 ++ 0#12 := by
  have high : (0xFFFFF000#32).extractLsb' 12 20 = BitVec.allOnes 20 := rfl
  have low : (0xFFFFF000#32).extractLsb' 0 12 = 0#12 := rfl
  calc immU w = (immU w).extractLsb' 12 20 ++ (immU w).extractLsb' 0 12 :=
        (BitVec.extractLsb'_append_extractLsb' (w := 20) (len := 12)).symm
    _ = w.extractLsb' 12 20 ++ 0#12 := by
        unfold immU
        rw [BitVec.extractLsb'_and, BitVec.extractLsb'_and, high, low, BitVec.and_allOnes, BitVec.and_zero]

theorem immUOk_immU (w : Word) : immUOk (immU w) = true := by
  rw [immUOk, immU_eq_append, toNat_append_add]
  simp

/-- Settles O5: the top field of each immediate is signed, the fields below it add their numbers. -/
theorem immediatesAreTheSignedFields : Obligations.ImmediatesAreTheSignedFields := by
  intro w
  have bound := w.isLt
  refine ⟨?_, ?_, ?_, ?_, ?_⟩
  · rw [immI, BitVec.toInt_signExtend_of_le (by decide), toInt_eq_toNat_sub]
    simp only [BitVec.extractLsb'_toNat, Nat.shiftRight_eq_div_pow]
    omega
  · rw [immS, BitVec.toInt_signExtend_of_le (by decide), BitVec.toInt_append, if_neg (by decide), toInt_eq_toNat_sub]
    simp only [BitVec.extractLsb'_toNat, Nat.shiftRight_eq_div_pow]
    omega
  · rw [immB, BitVec.toInt_signExtend_of_le (by decide), toInt_eq_toNat_sub]
    simp only [toNat_append_add, BitVec.extractLsb'_toNat, Nat.shiftRight_eq_div_pow, BitVec.toNat_ofNat]
    omega
  · rw [immU_eq_append, toNat_append_add]
    simp only [BitVec.extractLsb'_toNat, Nat.shiftRight_eq_div_pow, BitVec.toNat_ofNat]
    omega
  · rw [immJ, BitVec.toInt_signExtend_of_le (by decide), toInt_eq_toNat_sub]
    simp only [toNat_append_add, BitVec.extractLsb'_toNat, Nat.shiftRight_eq_div_pow, BitVec.toNat_ofNat]
    omega

end Sys2Proof
end

