-- ==== Sys2Proof/Proofs/DecodeEncode.lean ====
section
/-! SUPPORT. Decoding and encoding are inverse (30_encoding.md R44 to R57): the instruction of an encoded word, and the
word of a decoded instruction. -/

namespace Sys2Proof

open Machine

/-! From an instruction to its word and back (R52). -/

/-- The SYSTEM-other words (R57), by the decoder's opcode field. -/
theorem systemOtherOk_iff (w : Word) :
    systemOtherOk w = true ↔ fieldOpcode w = 0b1110011#7 ∧ w ≠ 0x00000073#32 ∧ w ≠ 0x00100073#32 := by
  have opcode : fieldOpcode w = 0b1110011#7 ↔ w.toNat % 128 = 0x73 := by
    rw [← BitVec.toNat_inj]
    rfl
  rw [opcode, systemOtherOk, Bool.and_eq_true, Bool.and_eq_true, decide_eq_true_eq, decide_eq_true_eq,
    decide_eq_true_eq, and_assoc]

theorem decodeWord_encode {i : Instr} (h : i.wellFormed = true) : decodeWord (encode i) = .ok i := by
  cases i with
  | add | sub | sll | slt | sltu | xor | srl | sra | or | and =>
    simp [encode, decodeWord_register, decodeRegister, encodeR_opcode, encodeR_funct3, encodeR_funct7, encodeR_rd,
      encodeR_rs1, encodeR_rs2]
  | slli | srli | srai =>
    simp [encode, decodeWord_immediate, decodeImmediate, decodeShiftRight, encodeR_opcode, encodeR_funct3,
      encodeR_funct7, encodeR_rd, encodeR_rs1, encodeR_rs2]
  | addi | slti | sltiu | xori | ori | andi =>
    simp [encode, decodeWord_immediate, decodeImmediate, encodeI_opcode, encodeI_funct3, encodeI_rd, encodeI_rs1,
      immI_encodeI _ _ _ _ _ h]
  | lb | lh | lw | lbu | lhu =>
    simp [encode, decodeWord_load, decodeLoad, encodeI_opcode, encodeI_funct3, encodeI_rd, encodeI_rs1,
      immI_encodeI _ _ _ _ _ h]
  | jalr =>
    simp [encode, decodeWord_jalr, decodeJalr, encodeI_opcode, encodeI_funct3, encodeI_rd, encodeI_rs1,
      immI_encodeI _ _ _ _ _ h]
  | sb | sh | sw =>
    simp [encode, decodeWord_store, decodeStore, encodeS_opcode, encodeS_funct3, encodeS_rs1, encodeS_rs2,
      immS_encodeS _ _ _ _ _ h]
  | beq | bne | blt | bge | bltu | bgeu =>
    simp [encode, decodeWord_branch, decodeBranch, encodeB_opcode, encodeB_funct3, encodeB_rs1, encodeB_rs2,
      immB_encodeB _ _ _ _ _ h]
  | jal => simp [encode, decodeWord_jal, encodeJ_opcode, encodeJ_rd, immJ_encodeJ _ _ _ h]
  | lui => simp [encode, decodeWord_lui, encodeU_opcode, encodeU_rd, immU_encodeU _ _ _ h]
  | auipc => simp [encode, decodeWord_auipc, encodeU_opcode, encodeU_rd, immU_encodeU _ _ _ h]
  | ecall | ebreak | halt => rfl
  | systemOther w =>
    obtain ⟨op, notEcall, notEbreak⟩ := (systemOtherOk_iff w).1 h
    rw [encode, decodeWord_system op, decodeSystem, if_neg notEcall, if_neg notEbreak]

/-- Settles O1, format by format: the fields of the encoded word are the operands. -/
theorem decodeOfEncodeIsTheInstruction : Obligations.DecodeOfEncodeIsTheInstruction := fun _ => decodeWord_encode

/-! A word from its fields and its immediate. -/

section
variable {w : Word} {i : Instr} {f7 : BitVec 7} {f3 : BitVec 3} {op : BitVec 7}

theorem encodeR_of_fields (h7 : fieldFunct7 w = f7) (h3 : fieldFunct3 w = f3) (ho : fieldOpcode w = op) :
    encodeR f7 (fieldRs2 w) (fieldRs1 w) f3 (fieldRd w) op = w := by
  subst h7 h3 ho
  exact encodeR_fields w

theorem encodeI_of_fields (h3 : fieldFunct3 w = f3) (ho : fieldOpcode w = op) :
    encodeI (immI w) (fieldRs1 w) f3 (fieldRd w) op = w := by
  subst h3 ho
  unfold immI
  rw [encodeI_eq, extract_signExtend _ (by decide) (by decide), extract_signExtend _ (by decide) (by decide),
    extract_extract _ (by decide), extract_extract _ (by decide)]
  exact encodeR_fields w

theorem encodeS_of_fields (h3 : fieldFunct3 w = f3) (ho : fieldOpcode w = op) :
    encodeS (immS w) (fieldRs2 w) (fieldRs1 w) f3 op = w := by
  subst h3 ho
  unfold immS
  rw [encodeS_eq, extract_signExtend _ (by decide) (by decide), extract_signExtend _ (by decide) (by decide),
    BitVec.extractLsb'_append_eq_left, BitVec.extractLsb'_append_eq_right]
  exact encodeR_fields w

theorem encodeB_of_fields (h3 : fieldFunct3 w = f3) (ho : fieldOpcode w = op) :
    encodeB (immB w) (fieldRs2 w) (fieldRs1 w) f3 op = w := by
  subst h3 ho
  have bit12 : (immB w).extractLsb' 12 1 = w.extractLsb' 31 1 := by
    rw [immB, extract_signExtend _ (by decide) (by decide)]
    iterate 4 rw [extract_append_left _ _ (by decide)]
    exact extract_whole _
  have bit11 : (immB w).extractLsb' 11 1 = w.extractLsb' 7 1 := by
    rw [immB, extract_signExtend _ (by decide) (by decide)]
    iterate 3 rw [extract_append_left _ _ (by decide)]
    exact BitVec.extractLsb'_append_eq_right
  have bits5 : (immB w).extractLsb' 5 6 = w.extractLsb' 25 6 := by
    rw [immB, extract_signExtend _ (by decide) (by decide)]
    iterate 2 rw [extract_append_left _ _ (by decide)]
    exact BitVec.extractLsb'_append_eq_right
  have bits1 : (immB w).extractLsb' 1 4 = w.extractLsb' 8 4 := by
    rw [immB, extract_signExtend _ (by decide) (by decide), extract_append_left _ _ (by decide)]
    exact BitVec.extractLsb'_append_eq_right
  rw [encodeB_eq, bit12, bits5, bits1, bit11, extract_join w 25 1 6, extract_join w 7 4 1]
  exact encodeR_fields w

theorem encodeU_of_fields (ho : fieldOpcode w = op) : encodeU (immU w) (fieldRd w) op = w := by
  subst ho
  rw [encodeU, immU_eq_append, BitVec.extractLsb'_append_eq_left, fieldRd, fieldOpcode, extract_join w 7 20 5,
    extract_join w 0 25 7]
  exact extract_whole w

theorem encodeJ_of_fields (ho : fieldOpcode w = op) : encodeJ (immJ w) (fieldRd w) op = w := by
  subst ho
  have bit20 : (immJ w).extractLsb' 20 1 = w.extractLsb' 31 1 := by
    rw [immJ, extract_signExtend _ (by decide) (by decide)]
    iterate 4 rw [extract_append_left _ _ (by decide)]
    exact extract_whole _
  have bits12 : (immJ w).extractLsb' 12 8 = w.extractLsb' 12 8 := by
    rw [immJ, extract_signExtend _ (by decide) (by decide)]
    iterate 3 rw [extract_append_left _ _ (by decide)]
    exact BitVec.extractLsb'_append_eq_right
  have bit11 : (immJ w).extractLsb' 11 1 = w.extractLsb' 20 1 := by
    rw [immJ, extract_signExtend _ (by decide) (by decide)]
    iterate 2 rw [extract_append_left _ _ (by decide)]
    exact BitVec.extractLsb'_append_eq_right
  have bits1 : (immJ w).extractLsb' 1 10 = w.extractLsb' 21 10 := by
    rw [immJ, extract_signExtend _ (by decide) (by decide), extract_append_left _ _ (by decide)]
    exact BitVec.extractLsb'_append_eq_right
  rw [encodeJ, bit20, bits1, bit11, bits12, fieldRd, fieldOpcode, extract_join w 21 1 10, extract_join w 20 11 1,
    extract_join w 12 12 8, extract_join w 7 20 5, extract_join w 0 25 7]
  exact extract_whole w

/-! What each opcode's decoder answers is well-formed, and the word is its encoding. -/

/-- `i` is well-formed, and `w` is its word. -/
def Encodes (i : Instr) (w : Word) : Prop := i.wellFormed = true ∧ encode i = w

theorem encodes_of_decodeRegister (ho : fieldOpcode w = 0b0110011#7) (h : decodeRegister w = .ok i) : Encodes i w := by
  unfold decodeRegister at h
  split at h <;> cases h
  all_goals next h3 h7 => exact ⟨rfl, encodeR_of_fields h7 h3 ho⟩

/-- The one code of the shift subtype that the immediate opcode does not list by itself (R93). -/
theorem eq_rightShift_of_ne {f : BitVec 3} (n0 : f ≠ 0b000#3) (n2 : f ≠ 0b010#3) (n3 : f ≠ 0b011#3) (n4 : f ≠ 0b100#3)
    (n6 : f ≠ 0b110#3) (n7 : f ≠ 0b111#3) (n1 : f ≠ 0b001#3) : f = 0b101#3 := by bv_omega

theorem encodes_of_decodeShiftRight (ho : fieldOpcode w = 0b0010011#7) (h3 : fieldFunct3 w = 0b101#3)
    (h : decodeShiftRight w = .ok i) : Encodes i w := by
  unfold decodeShiftRight at h
  split at h <;> cases h
  all_goals next h7 => exact ⟨rfl, encodeR_of_fields h7 h3 ho⟩

theorem encodes_of_decodeImmediate (ho : fieldOpcode w = 0b0010011#7) (h : decodeImmediate w = .ok i) : Encodes i w := by
  unfold decodeImmediate at h
  split at h
  case h_7 h3 =>
    split at h <;> cases h
    next h7 => exact ⟨rfl, encodeR_of_fields h7 h3 ho⟩
  case h_8 n0 n2 n3 n4 n6 n7 n1 =>
    exact encodes_of_decodeShiftRight ho (eq_rightShift_of_ne n0 n2 n3 n4 n6 n7 n1) h
  all_goals
    cases h
    next h3 => exact ⟨imm12Ok_signExtend _, encodeI_of_fields h3 ho⟩

theorem encodes_of_decodeLoad (ho : fieldOpcode w = 0b0000011#7) (h : decodeLoad w = .ok i) : Encodes i w := by
  unfold decodeLoad at h
  split at h <;> cases h
  all_goals next h3 => exact ⟨imm12Ok_signExtend _, encodeI_of_fields h3 ho⟩

theorem encodes_of_decodeStore (ho : fieldOpcode w = 0b0100011#7) (h : decodeStore w = .ok i) : Encodes i w := by
  unfold decodeStore at h
  split at h <;> cases h
  all_goals next h3 => exact ⟨imm12Ok_signExtend _, encodeS_of_fields h3 ho⟩

theorem encodes_of_decodeBranch (ho : fieldOpcode w = 0b1100011#7) (h : decodeBranch w = .ok i) : Encodes i w := by
  unfold decodeBranch at h
  split at h <;> cases h
  all_goals next h3 => exact ⟨immBOk_signExtend _, encodeB_of_fields h3 ho⟩

theorem encodes_of_decodeJalr (ho : fieldOpcode w = 0b1100111#7) (h : decodeJalr w = .ok i) : Encodes i w := by
  unfold decodeJalr at h
  split at h <;> cases h
  next h3 => exact ⟨imm12Ok_signExtend _, encodeI_of_fields h3 ho⟩

theorem encodes_decodeSystem (ho : fieldOpcode w = 0b1110011#7) : Encodes (decodeSystem w) w := by
  unfold decodeSystem
  split
  · next e => exact ⟨rfl, e.symm⟩
  split
  · next e => exact ⟨rfl, e.symm⟩
  · next notEcall notEbreak => exact ⟨(systemOtherOk_iff w).2 ⟨ho, notEcall, notEbreak⟩, rfl⟩

/-- All that the decoder can do with a word: the zero word, one case an opcode, and the rejection of every other opcode
(R43, R53, R54). -/
theorem decodeWord_cases (w : Word) :
    (w = 0#32 ∧ decodeWord w = .ok .halt) ∨
    (fieldOpcode w = 0b0110011#7 ∧ decodeWord w = decodeRegister w) ∨
    (fieldOpcode w = 0b0010011#7 ∧ decodeWord w = decodeImmediate w) ∨
    (fieldOpcode w = 0b0000011#7 ∧ decodeWord w = decodeLoad w) ∨
    (fieldOpcode w = 0b0100011#7 ∧ decodeWord w = decodeStore w) ∨
    (fieldOpcode w = 0b1100111#7 ∧ decodeWord w = decodeJalr w) ∨
    (fieldOpcode w = 0b1100011#7 ∧ decodeWord w = decodeBranch w) ∨
    (fieldOpcode w = 0b0110111#7 ∧ decodeWord w = .ok (.lui (fieldRd w) (immU w))) ∨
    (fieldOpcode w = 0b0010111#7 ∧ decodeWord w = .ok (.auipc (fieldRd w) (immU w))) ∨
    (fieldOpcode w = 0b1101111#7 ∧ decodeWord w = .ok (.jal (fieldRd w) (immJ w))) ∨
    (fieldOpcode w = 0b1110011#7 ∧ decodeWord w = .ok (decodeSystem w)) ∨
    (w ≠ 0#32 ∧ fieldOpcode w ∉ knownOpcodes ∧ decodeWord w = .error .unknownOpcode) := by
  by_cases zero : w = 0#32
  · exact .inl ⟨zero, if_pos zero⟩
  right
  rw [decodeWord, if_neg zero]
  split <;> simp_all [knownOpcodes]

theorem encodes_of_decodeWord (h : decodeWord w = .ok i) : Encodes i w := by
  rcases decodeWord_cases w with ⟨zero, e⟩ | ⟨ho, e⟩ | ⟨ho, e⟩ | ⟨ho, e⟩ | ⟨ho, e⟩ | ⟨ho, e⟩ | ⟨ho, e⟩ | ⟨ho, e⟩ |
    ⟨ho, e⟩ | ⟨ho, e⟩ | ⟨ho, e⟩ | ⟨_, _, e⟩ <;> rw [e] at h
  · cases h; exact ⟨rfl, zero.symm⟩
  · exact encodes_of_decodeRegister ho h
  · exact encodes_of_decodeImmediate ho h
  · exact encodes_of_decodeLoad ho h
  · exact encodes_of_decodeStore ho h
  · exact encodes_of_decodeJalr ho h
  · exact encodes_of_decodeBranch ho h
  · cases h; exact ⟨immUOk_immU w, encodeU_of_fields ho⟩
  · cases h; exact ⟨immUOk_immU w, encodeU_of_fields ho⟩
  · cases h; exact ⟨immJOk_signExtend _, encodeJ_of_fields ho⟩
  · cases h; exact encodes_decodeSystem ho
  · cases h

end

/-- Settles O2, opcode by opcode: the operands of the answer are the fields of the word. -/
theorem encodeOfDecodeIsTheWord : Obligations.EncodeOfDecodeIsTheWord := fun _ _ => encodes_of_decodeWord

/-! The encodings written out bit by bit. -/

section
variable (rd rs1 rs2 : RegIdx) (f3 : BitVec 3) (op : BitVec 7)

theorem encodeI_signExtend (f : BitVec 12) : encodeI (f.signExtend 32) rs1 f3 rd op = f ++ rs1 ++ f3 ++ rd ++ op := by
  rw [encodeI, extract_signExtend _ (by decide) (by decide), extract_whole]

theorem encodeS_signExtend (f : BitVec 12) : encodeS (f.signExtend 32) rs2 rs1 f3 op =
    f.extractLsb' 5 7 ++ rs2 ++ rs1 ++ f3 ++ f.extractLsb' 0 5 ++ op := by
  rw [encodeS, extract_signExtend _ (by decide) (by decide), extract_signExtend _ (by decide) (by decide)]

/-- The bits of an even immediate stand one place higher than those of its field (R48, R50). -/
theorem extract_signExtend_append_zero {n start len : Nat} (f : BitVec n) (h : start + len ≤ n) (h32 : n + 1 ≤ 32) :
    ((f ++ 0#1).signExtend 32).extractLsb' (start + 1) len = f.extractLsb' start len := by
  rw [extract_signExtend _ (by omega) h32, extract_append_left _ _ (by omega), Nat.add_sub_cancel]

theorem encodeB_signExtend (f : BitVec 12) : encodeB ((f ++ 0#1 : BitVec 13).signExtend 32) rs2 rs1 f3 op =
    f.extractLsb' 11 1 ++ f.extractLsb' 4 6 ++ rs2 ++ rs1 ++ f3 ++ f.extractLsb' 0 4 ++ f.extractLsb' 10 1 ++ op := by
  have part {start len : Nat} (h : start + len ≤ 12) := extract_signExtend_append_zero f h (by decide)
  rw [encodeB, part (start := 11) (by decide), part (start := 4) (by decide), part (start := 0) (by decide),
    part (start := 10) (by decide)]

theorem encodeJ_signExtend (g : BitVec 20) : encodeJ ((g ++ 0#1 : BitVec 21).signExtend 32) rd op =
    g.extractLsb' 19 1 ++ g.extractLsb' 0 10 ++ g.extractLsb' 10 1 ++ g.extractLsb' 11 8 ++ rd ++ op := by
  have part {start len : Nat} (h : start + len ≤ 20) := extract_signExtend_append_zero g h (by decide)
  rw [encodeJ, part (start := 19) (by decide), part (start := 0) (by decide), part (start := 10) (by decide),
    part (start := 11) (by decide)]

end

/-- Settles O7: each word is an encoding, whose immediate is in its range. -/
theorem loadStoreAndTransferEncodingsDecode : Obligations.LoadStoreAndTransferEncodingsDecode := by
  intro rd rs1 rs2 f g
  have ok12 := imm12Ok_signExtend f
  have okB := immBOk_signExtend f
  have reads := decodeOfEncodeIsTheInstruction
  simp only [← encodeI_signExtend, ← encodeS_signExtend, ← encodeB_signExtend, ← encodeJ_signExtend]
  exact ⟨reads (.lb ..) ok12, reads (.lh ..) ok12, reads (.lw ..) ok12, reads (.lbu ..) ok12, reads (.lhu ..) ok12,
    reads (.sb ..) ok12, reads (.sh ..) ok12, reads (.sw ..) ok12, reads (.jalr ..) ok12,
    reads (.beq ..) okB, reads (.bne ..) okB, reads (.blt ..) okB, reads (.bge ..) okB, reads (.bltu ..) okB,
    reads (.bgeu ..) okB, reads (.jal ..) (immJOk_signExtend g)⟩

/-- Settles O4, by running the decoder on the fifteen words. -/
theorem wordsOfTheSpecDecodeAsNamed : Obligations.WordsOfTheSpecDecodeAsNamed := by
  unfold Obligations.WordsOfTheSpecDecodeAsNamed
  decide

end Sys2Proof
end

