-- ==== Sys2Proof/Proofs/OpcodeTable.lean ====
section
/-! SUPPORT. The decoder against the opcode table (30_encoding.md R53): an accepted word is of its instruction's row, and
a word of any row is accepted. -/

namespace Sys2Proof

theorem row_mem_opcodeTable (i : Instr) : i.row ∈ opcodeTable := by
  cases i <;> simp [Instr.row, opcodeTable, registerRows, immediateRows, memoryRows, controlRows, otherRows]

open Laws.EncodedRow in
/-- The word of every well-formed instruction is of the instruction's row. -/
theorem row_accepts_encode {i : Instr} (h : i.wellFormed = true) : i.row.accepts (encode i) := by
  cases i with
  | add | sub | sll | slt | sltu | xor | srl | sra | or | and | slli | srli | srai => exact rowR _ _ _ _ _ _ rfl
  | addi | slti | sltiu | xori | ori | andi | lb | lh | lw | lbu | lhu | jalr => exact rowI _ _ _ _ _ _ rfl
  | sb | sh | sw => exact rowS _ _ _ _ _ _ rfl
  | beq | bne | blt | bge | bltu | bgeu => exact rowB _ _ _ _ _ _ rfl
  | jal => exact rowJ _ _ _ _ rfl
  | lui | auipc => exact rowU _ _ _ _ rfl
  | ecall | ebreak | halt => rfl
  | systemOther w => exact rowSystem w h

section
variable {r : OpcodeRow} {w : Word}

/-! What a row says of a field that its mask covers. -/

theorem opcode_of_accepts (h : r.accepts w) (hm : fieldOpcode r.mask = BitVec.allOnes 7) :
    fieldOpcode w = fieldOpcode r.value := by
  rw [← h, fieldOpcode, fieldOpcode, BitVec.extractLsb'_and, ← fieldOpcode, ← fieldOpcode, hm, BitVec.and_allOnes]

theorem funct3_of_accepts (h : r.accepts w) (hm : fieldFunct3 r.mask = BitVec.allOnes 3) :
    fieldFunct3 w = fieldFunct3 r.value := by
  rw [← h, fieldFunct3, fieldFunct3, BitVec.extractLsb'_and, ← fieldFunct3, ← fieldFunct3, hm, BitVec.and_allOnes]

theorem funct7_of_accepts (h : r.accepts w) (hm : fieldFunct7 r.mask = BitVec.allOnes 7) :
    fieldFunct7 w = fieldFunct7 r.value := by
  rw [← h, fieldFunct7, fieldFunct7, BitVec.extractLsb'_and, ← fieldFunct7, ← fieldFunct7, hm, BitVec.and_allOnes]

/-! A word of a row decodes, list by list. -/

theorem decodes_of_registerRows (hr : r ∈ registerRows) (h : r.accepts w) : ∃ i, decodeWord w = .ok i := by
  unfold registerRows at hr
  fin_cases hr <;>
  · rw [decodeWord_register (opcode_of_accepts h rfl), decodeRegister, funct3_of_accepts h rfl, funct7_of_accepts h rfl]
    exact ⟨_, rfl⟩

theorem decodes_of_immediateRows (hr : r ∈ immediateRows) (h : r.accepts w) : ∃ i, decodeWord w = .ok i := by
  unfold immediateRows at hr
  fin_cases hr <;> rw [decodeWord_immediate (opcode_of_accepts h rfl), decodeImmediate, funct3_of_accepts h rfl]
  -- The six with an immediate, then SLLI, then SRLI and SRAI, which have a funct7.
  iterate 6 · exact ⟨_, rfl⟩
  · exact ⟨_, if_pos (funct7_of_accepts h rfl)⟩
  all_goals
    show ∃ i, decodeShiftRight w = _
    rw [decodeShiftRight, funct7_of_accepts h rfl]
    exact ⟨_, rfl⟩

theorem decodes_of_memoryRows (hr : r ∈ memoryRows) (h : r.accepts w) : ∃ i, decodeWord w = .ok i := by
  unfold memoryRows at hr
  fin_cases hr
  -- The five loads, then the stores.
  iterate 5
    · rw [decodeWord_load (opcode_of_accepts h rfl), decodeLoad, funct3_of_accepts h rfl]
      exact ⟨_, rfl⟩
  all_goals
    rw [decodeWord_store (opcode_of_accepts h rfl), decodeStore, funct3_of_accepts h rfl]
    exact ⟨_, rfl⟩

theorem decodes_of_controlRows (hr : r ∈ controlRows) (h : r.accepts w) : ∃ i, decodeWord w = .ok i := by
  unfold controlRows at hr
  fin_cases hr
  -- JALR, the six branches, JAL.
  · rw [decodeWord_jalr (opcode_of_accepts h rfl), decodeJalr]
    exact ⟨_, if_pos (funct3_of_accepts h rfl)⟩
  iterate 6
    · rw [decodeWord_branch (opcode_of_accepts h rfl), decodeBranch, funct3_of_accepts h rfl]
      exact ⟨_, rfl⟩
  · exact ⟨_, decodeWord_jal (opcode_of_accepts h rfl)⟩

theorem decodes_of_otherRows (hr : r ∈ otherRows) (h : r.accepts w) : ∃ i, decodeWord w = .ok i := by
  unfold otherRows at hr
  fin_cases hr
  -- LUI, AUIPC, the three SYSTEM rows, the zero word.
  · exact ⟨_, decodeWord_lui (opcode_of_accepts h rfl)⟩
  · exact ⟨_, decodeWord_auipc (opcode_of_accepts h rfl)⟩
  iterate 3 · exact ⟨_, decodeWord_system (opcode_of_accepts h rfl)⟩
  · exact ⟨.halt, if_pos (BitVec.and_allOnes.symm.trans h)⟩

theorem decodes_of_opcodeTable (hr : r ∈ opcodeTable) (h : r.accepts w) : ∃ i, decodeWord w = .ok i := by
  simp only [opcodeTable, List.mem_append] at hr
  obtain (((hr | hr) | hr) | hr) | hr := hr
  · exact decodes_of_registerRows hr h
  · exact decodes_of_immediateRows hr h
  · exact decodes_of_memoryRows hr h
  · exact decodes_of_controlRows hr h
  · exact decodes_of_otherRows hr h

end

/-- Settles O3: an accepted word is the encoding of its instruction, and the fields that a row fixes are those the decoder
tests. -/
theorem decoderAcceptsExactlyTheOpcodeTable : Obligations.DecoderAcceptsExactlyTheOpcodeTable := by
  intro w
  have ownRow {i : Instr} (h : decodeWord w = .ok i) : i.row ∈ opcodeTable ∧ i.row.accepts w := by
    obtain ⟨wf, word⟩ := encodes_of_decodeWord h
    exact ⟨row_mem_opcodeTable i, word ▸ row_accepts_encode wf⟩
  exact ⟨⟨fun ⟨i, h⟩ => ⟨i.row, ownRow h⟩, fun ⟨_, hr, h⟩ => decodes_of_opcodeTable hr h⟩, fun _ => ownRow⟩

end Sys2Proof
end

