-- ==== Sys2Proof/Proofs/Rejections.lean ====
section
/-! SUPPORT. The words that are no instruction: which opcodes and function codes the decoder rejects (30_encoding.md R54,
R55), and the fault of the step that fetches such a word (60_exceptions.md R126). -/

namespace Sys2Proof.Machine

/-- A step of a machine that fetches `w` decodes and executes it after the fetch transaction (R61 to R65). -/
theorem step_eq_runWord {s : State} {w : Word} (hf : Fetching s) (held : AtPc s w) :
    step s = runWord w (s.busDone s.pc w) := by
  have read := memRead_atPc hf held
  obtain ⟨running, capacity, space⟩ := hf
  have inside : endOfSpace s = false := decide_eq_false (not_le.2 space)
  simp only [step, cycle, if_neg (not_lt.2 capacity), running, runningStep, inside, fetch, busRead, read, Bool.false_eq_true,
    if_false]

/-- The step after a rejected fetch: IllegalInstruction of the word; pc, registers and memory stay (R126, R131). -/
theorem step_faults_of_rejected {s : State} {w : Word} {r : DecodeReject} (hf : Fetching s) (held : AtPc s w)
    (hd : decodeWord w = .error r) : ∃ t, step s = .next t ∧ t.status = .faulted (.illegalInstruction w) ∧
      t.pc = s.pc ∧ SameRegs s t ∧ SameMemory s t :=
  ⟨(s.busDone s.pc w).takeFault (.illegalInstruction w), by rw [step_eq_runWord hf held, runWord, hd]; rfl, rfl, rfl,
    fun _ => rfl, .of_mem_eq rfl⟩

end Sys2Proof.Machine

namespace Sys2Proof

open Machine

section
variable {w : Word}

/-! No opcode's own decoder answers UnknownOpcode (R54, R55). -/

theorem decodeRegister_ne_unknownOpcode : decodeRegister w ≠ .error .unknownOpcode := by
  unfold decodeRegister; split <;> simp

theorem decodeShiftRight_ne_unknownOpcode : decodeShiftRight w ≠ .error .unknownOpcode := by
  unfold decodeShiftRight; split <;> simp

theorem decodeImmediate_ne_unknownOpcode : decodeImmediate w ≠ .error .unknownOpcode := by
  unfold decodeImmediate
  split
  case h_7 => split <;> simp
  case h_8 => exact decodeShiftRight_ne_unknownOpcode
  all_goals simp

theorem decodeLoad_ne_unknownOpcode : decodeLoad w ≠ .error .unknownOpcode := by
  unfold decodeLoad; split <;> simp

theorem decodeStore_ne_unknownOpcode : decodeStore w ≠ .error .unknownOpcode := by
  unfold decodeStore; split <;> simp

theorem decodeJalr_ne_unknownOpcode : decodeJalr w ≠ .error .unknownOpcode := by
  unfold decodeJalr; split <;> simp

theorem decodeBranch_ne_unknownOpcode : decodeBranch w ≠ .error .unknownOpcode := by
  unfold decodeBranch; split <;> simp

/-- The rejection of an unknown opcode, exactly (R54). -/
theorem decodeWord_unknownOpcode_iff :
    decodeWord w = .error .unknownOpcode ↔ w ≠ 0#32 ∧ fieldOpcode w ∉ knownOpcodes := by
  refine ⟨fun h => ?_, fun ⟨zero, unknown⟩ => ?_⟩
  · rcases decodeWord_cases w with ⟨_, e⟩ | ⟨_, e⟩ | ⟨_, e⟩ | ⟨_, e⟩ | ⟨_, e⟩ | ⟨_, e⟩ | ⟨_, e⟩ | ⟨_, e⟩ | ⟨_, e⟩ |
      ⟨_, e⟩ | ⟨_, e⟩ | ⟨zero, unknown, _⟩
    · cases e.symm.trans h
    · exact absurd (e.symm.trans h) decodeRegister_ne_unknownOpcode
    · exact absurd (e.symm.trans h) decodeImmediate_ne_unknownOpcode
    · exact absurd (e.symm.trans h) decodeLoad_ne_unknownOpcode
    · exact absurd (e.symm.trans h) decodeStore_ne_unknownOpcode
    · exact absurd (e.symm.trans h) decodeJalr_ne_unknownOpcode
    · exact absurd (e.symm.trans h) decodeBranch_ne_unknownOpcode
    iterate 4 · cases e.symm.trans h
    · exact ⟨zero, unknown⟩
  · simp only [knownOpcodes, List.mem_cons, not_or] at unknown
    simp [decodeWord, zero, unknown]

/-! The reserved function codes (R55; D6, log 12). -/

theorem decodeImmediate_reservedLeftShift (h3 : fieldFunct3 w = 0b001#3) (h7 : fieldFunct7 w ≠ 0b0000000#7) :
    decodeImmediate w = .error .reservedShiftFunction := by
  simp [decodeImmediate, h3, h7]

theorem decodeImmediate_reservedRightShift (h3 : fieldFunct3 w = 0b101#3) (h7 : fieldFunct7 w ≠ 0b0000000#7)
    (h7' : fieldFunct7 w ≠ 0b0100000#7) : decodeImmediate w = .error .reservedShiftFunction := by
  have shift : decodeImmediate w = decodeShiftRight w := by simp [decodeImmediate, h3]
  rw [shift, decodeShiftRight]
  split
  · contradiction
  · contradiction
  · rfl

theorem decodeLoad_reserved (h3 : fieldFunct3 w = 0b011#3 ∨ fieldFunct3 w = 0b110#3 ∨ fieldFunct3 w = 0b111#3) :
    decodeLoad w = .error .reservedLoadWidth := by
  rcases h3 with h3 | h3 | h3 <;> simp [decodeLoad, h3]

theorem decodeStore_reserved (h3 : 0b011#3 ≤ fieldFunct3 w) : decodeStore w = .error .reservedStoreWidth := by
  unfold decodeStore
  split
  case h_4 => rfl
  all_goals next e => rw [e] at h3; exact absurd h3 (by decide)

theorem decodeBranch_reserved (h3 : fieldFunct3 w = 0b010#3 ∨ fieldFunct3 w = 0b011#3) :
    decodeBranch w = .error .reservedBranchCondition := by
  rcases h3 with h3 | h3 <;> simp [decodeBranch, h3]

theorem decodeJalr_reserved (h3 : fieldFunct3 w ≠ 0b000#3) : decodeJalr w = .error .reservedJalrFunction := if_neg h3

end

/-- Settles O8: the decoder rejects exactly these words so, and a rejected word faults. -/
theorem unknownOpcodeFaults : Obligations.UnknownOpcodeFaults := by
  refine ⟨by rfl, fun w => ⟨decodeWord_unknownOpcode_iff, fun s hf held zero unknown => ?_⟩⟩
  obtain ⟨t, e, status, _⟩ := step_faults_of_rejected hf held (decodeWord_unknownOpcode_iff.2 ⟨zero, unknown⟩)
  exact ⟨t, e, status⟩

/-- Settles O10, class by class: each is rejected, and a rejected word faults. -/
theorem reservedFunctionCodesFault : Obligations.ReservedFunctionCodesFault := by
  intro w s hf held reserved
  obtain ⟨r, hd⟩ : ∃ r, decodeWord w = .error r := by
    rcases reserved with ⟨ho, h3, h7⟩ | ⟨ho, h3, h7, h7'⟩ | ⟨ho, h3⟩ | ⟨ho, h3⟩ | ⟨ho, h3⟩ | ⟨ho, h3⟩
    · exact ⟨_, (decodeWord_immediate ho).trans (decodeImmediate_reservedLeftShift h3 h7)⟩
    · exact ⟨_, (decodeWord_immediate ho).trans (decodeImmediate_reservedRightShift h3 h7 h7')⟩
    · exact ⟨_, (decodeWord_load ho).trans (decodeLoad_reserved h3)⟩
    · exact ⟨_, (decodeWord_store ho).trans (decodeStore_reserved h3)⟩
    · exact ⟨_, (decodeWord_branch ho).trans (decodeBranch_reserved h3)⟩
    · exact ⟨_, (decodeWord_jalr ho).trans (decodeJalr_reserved h3)⟩
  exact step_faults_of_rejected hf held hd

end Sys2Proof
end

