-- ==== Sys2Proof/Proofs/StepCycle.lean ====
section
/-! SUPPORT. The cycle (40_step_cycle.md R61 to R69): where an instruction leaves the pc, the two ways a step ends before
an instruction is decoded, and runs. -/

namespace Sys2Proof.Machine

/-! The pc after an instruction (R66, R69). -/

/-- An instruction keeps the status and sends the pc to its jump target or past itself, or it ends the run where it
stands. -/
theorem exec_status_pc {i : Instr} {s t : State} (e : exec i s = .next t) :
    (t.status = s.status ∧ t.pc = (i.jumpTarget s).getD (s.pc + 4#32)) ∨ (t.status ≠ .running ∧ t.pc = s.pc) := by
  rcases exec_next_cases e with ⟨_, _, _, rfl, _, _, _, jump⟩ | ⟨_, _, _, _, rfl, _, _, _, jump⟩ | ⟨rfl, _, _, _, jump⟩ |
    ⟨_, rfl, _, _, _, jump⟩ | ⟨_, _, _, _, _, rfl, _, _, _, jump⟩ | ⟨_, _, _, _, rfl, _⟩ |
    ⟨_, _, _, _, _, _, rfl, _, _, _, jump⟩ | ⟨_, _, _, _, _, _, rfl, _⟩ | ⟨_, _, rfl, _⟩ | ⟨_, rfl, _, _, _, jump⟩
  · exact .inl (by simp [jump])
  · exact .inl (by simp [jump])
  · exact .inl (by simp [jump])
  · exact .inl (by simp [jump])
  · exact .inl (by simp [jump])
  · exact .inr (by simp)
  · exact .inl (by simp [jump])
  · exact .inr (by simp)
  · exact .inr (by simp)
  · exact .inl (by simp [jump])

/-- Settles O32, by the two ends of an instruction. -/
theorem pcIsWrittenOnce : Obligations.PcIsWrittenOnce := by
  intro i s running
  obtain ⟨t, e⟩ := exec_next i s
  refine ⟨t, e, ?_⟩
  rcases exec_status_pc e with ⟨same, pc⟩ | ⟨ended, pc⟩
  · exact ⟨fun _ => pc, fun ended => absurd (same.trans running) ended⟩
  · exact ⟨fun still => absurd still ended, fun _ => pc⟩

/-! The steps that decode nothing. -/

/-- Taking a halt is all that a halt does (R127, R131). -/
theorem onlyHalts_takeHalt (s : State) (c : HaltCause) : OnlyHalts s (.next (s.takeHalt c)) c :=
  ⟨_, rfl, rfl, rfl, fun _ => rfl, .of_mem_eq rfl, ⟨rfl, rfl, rfl⟩, ⟨rfl, rfl⟩, rfl⟩

/-- R62: the end-of-space test comes before the fetch. -/
theorem step_endOfSpace {s : State} (running : s.status = .running) (cap : Config.minCapacity ≤ s.capacity)
    (full : s.capacity ≤ s.pc.toNat + 3) : step s = .next (s.takeHalt .endOfSpace) := by
  rcases step_cases s with ⟨low, _⟩ | ⟨_, stopped, _⟩ | ⟨_, _, ⟨_, e⟩ | ⟨inside, _⟩⟩
  · omega
  · exact absurd running stopped
  · exact e
  · omega

/-- R63, R125: a fetch whose memory call fails is the fault. -/
theorem step_of_failedFetch {s : State} {f : FaultCause} (hf : Fetching s)
    (failed : memRead s.capacity s.mem s.pc .word = .error f) : step s = .next ((s.busFailed s.pc).takeFault f) := by
  obtain ⟨running, cap, inside⟩ := hf
  rcases step_cases s with ⟨low, _⟩ | ⟨_, stopped, _⟩ |
    ⟨_, _, ⟨full, _⟩ | ⟨_, ⟨_, failed', e⟩ | ⟨_, _, fetched, _⟩ | ⟨_, _, fetched, _⟩⟩⟩
  · omega
  · exact absurd running stopped
  · omega
  · cases failed.symm.trans failed'
    exact e
  · cases failed.symm.trans fetched
  · cases failed.symm.trans fetched

theorem readBytes_beyond (n : Nat) (m : Memory) {a : Word} (h : 0xA0000 ≤ a.toNat) :
    readBytes m a (n + 1) = .error (.outOfBounds a) := by
  rw [readBytes, readByte_beyond m h]

/-- A read that reaches 0xA0000 fails at its first byte with no region, whether it starts below 0xA0000 or not (R28). -/
theorem readBytes_reaching (n : Nat) (s : State) (a : Word) (reaches : 0xA0000 ≤ a.toNat + n) :
    readBytes s.mem a (n + 1) = .error (.outOfBounds (u32 (max a.toNat 0xA0000 : Nat))) := by
  have starts (n : Nat) {a : Word} (beyond : 0xA0000 ≤ a.toNat) :
      readBytes s.mem a (n + 1) = .error (.outOfBounds (u32 (max a.toNat 0xA0000 : Nat))) := by
    rw [readBytes_beyond n s.mem beyond, Nat.max_eq_left beyond, ← eq_u32_of_toNat rfl]
  induction n generalizing a with
  | zero => exact starts 0 reaches
  | succ n ih =>
    rcases Nat.lt_or_ge a.toNat 0xA0000 with below | beyond
    · have next : (a + 1#32).toNat = a.toNat + 1 := toNat_add_ofNat a 1 (by omega)
      obtain ⟨b, byte, _⟩ := s.byteAt_below below
      rw [State.byteAt] at byte
      rw [readBytes, byte, ih (a + 1#32) (by omega), next, Nat.max_eq_right below, Nat.max_eq_right (by omega)]
    · exact starts (n + 1) beyond

/-- Settles O36: the bytes at the pc are what the fetch reads. -/
theorem stepRunsTheDecodedInstruction : Obligations.StepRunsTheDecodedInstruction :=
  fun _ _ _ => step_of_atPc

/-- Settles O37, by the step at the end of the space. -/
theorem endOfSpaceHalts : Obligations.EndOfSpaceHalts :=
  fun s running cap full => step_endOfSpace running cap full ▸ onlyHalts_takeHalt s .endOfSpace

/-- Settles O38: the fetch passes its pre-check, which is the end-of-space test again, and fails at a byte. -/
theorem fetchWithoutRegionFaults : Obligations.FetchWithoutRegionFaults := by
  intro s hf reaches
  have passes : preCheckFails s.capacity s.pc .word = false := preCheckFails_of_le hf.2.2
  have failed := (memRead_of_passes (m := s.mem) passes).trans (readBytes_reaching 3 s s.pc reaches)
  exact ⟨_, step_of_failedFetch hf failed, rfl, rfl, fun _ => rfl, fun _ => rfl, rfl, rfl, rfl⟩

/-! Runs (R67). -/

theorem run_of_running {s t : State} (k : Nat) (running : s.status = .running) (e : step s = .next t) :
    run (k + 1) s = run k t := by
  simp only [run, running, e]

/-- D11: a run of a machine that is not Running is no step. -/
theorem run_of_stopped {s : State} (k : Nat) (stopped : s.status ≠ .running) : run k s = .next s := by
  cases k with
  | zero => rfl
  | succ k =>
    cases status : s.status with
    | running => exact absurd status stopped
    | halted c => simp only [run, status]
    | faulted f => simp only [run, status]

/-- No step changes the capacity or drops a report (R23, R121). -/
theorem step_capacity_reports {s t : State} (e : step s = .next t) :
    t.capacity = s.capacity ∧ s.reports <+: t.reports := by
  have kept {u : State} (e' : step s = .next u) : SameReports s u → t.capacity = s.capacity ∧ s.reports <+: t.reports
    | ⟨reports, cap⟩ => by cases e.symm.trans e'; exact ⟨cap, reports ▸ List.prefix_rfl⟩
  rcases step_cases s with ⟨_, e'⟩ | ⟨_, _, e'⟩ |
    ⟨_, _, ⟨_, e'⟩ | ⟨_, ⟨_, _, e'⟩ | ⟨_, _, _, _, e'⟩ | ⟨_, i, _, _, e'⟩⟩⟩
  · cases e.symm.trans e'
  · exact kept e' ⟨rfl, rfl⟩
  · exact kept e' ⟨rfl, rfl⟩
  · exact kept e' ⟨rfl, rfl⟩
  · exact kept e' ⟨rfl, rfl⟩
  · obtain ⟨cap, reports⟩ := exec_capacity_reports (e'.symm.trans e)
    exact ⟨cap, i.reportOf, reports.symm⟩

/-- Every run from the invariant answers a state that meets it (R67, R145). -/
theorem run_keeps_inv (k : Nat) {s : State} (h : Inv s) :
    ∃ t, run k s = .next t ∧ Inv t ∧ t.capacity = s.capacity ∧ s.reports <+: t.reports := by
  induction k generalizing s with
  | zero => exact ⟨s, rfl, h, rfl, List.prefix_rfl⟩
  | succ k ih =>
    by_cases running : s.status = .running
    · obtain ⟨u, e, hu⟩ := stepKeepsTheInvariant s h
      obtain ⟨cap, reports⟩ := step_capacity_reports e
      obtain ⟨t, e', ht, cap', reports'⟩ := ih hu
      exact ⟨t, (run_of_running k running e).trans e', ht, cap'.trans cap, reports.trans reports'⟩
    · exact ⟨s, run_of_stopped (k + 1) running, h, rfl, List.prefix_rfl⟩

/-- Settles O40: the equations of a run, and the induction over its fuel. -/
theorem runStepsWhileRunning : Obligations.RunStepsWhileRunning :=
  ⟨fun _ => rfl, fun k _ _ => run_of_running k, fun k _ => run_of_stopped k, fun k _ => run_keeps_inv k⟩

end Sys2Proof.Machine
end

