-- ==== Sys2Proof/Proofs/AluRegister.lean ====
section
/-! SUPPORT. The register-register instructions (41_alu_register.md R70 to R82): the word operations as arithmetic on the
numbers that the words stand for, the state after a result is written, and the rejected function pairs. -/

namespace Sys2Proof.Machine

/-! The word operations in numbers. -/

section Arithmetic
variable (a b v : Word) (k : Nat)

theorem u32_add (x y : Int) : u32 (x + y) = u32 x + u32 y := BitVec.ofInt_add x y

theorem u32_toNat : u32 v.toNat = v := (eq_u32_of_toNat rfl).symm

theorem add_eq_u32 : a + b = u32 (a.toNat + b.toNat) := by
  rw [u32_add, u32_toNat, u32_toNat]

theorem sub_eq_u32 : a - b = u32 (a.toNat - b.toNat) := by
  refine sub_eq_of_eq_add ?_
  calc a = u32 (a.toNat - b.toNat + b.toNat) := by rw [Int.sub_add_cancel, u32_toNat]
    _ = u32 (a.toNat - b.toNat) + b := by rw [u32_add, u32_toNat b]

/-- The mask of the shift amount is the remainder by 32 (R73, R77, R78). -/
theorem shiftAmount_eq_mod : shiftAmount v = v.toNat % 32 := by
  rw [shiftAmount, BitVec.toNat_and]
  exact Nat.and_two_pow_sub_one_eq_mod v.toNat 5

theorem shiftLeft_eq_u32 : a <<< k = u32 (a.toNat * 2 ^ k : Nat) := by
  refine BitVec.eq_of_toNat_eq ?_
  rw [u32_natCast, BitVec.toNat_shiftLeft, BitVec.toNat_ofNat, Nat.shiftLeft_eq]

theorem ushiftRight_eq_u32 : a >>> k = u32 (a.toNat / 2 ^ k : Nat) :=
  eq_u32_of_toNat (by rw [BitVec.toNat_ushiftRight, Nat.shiftRight_eq_div_pow])

/-- The arithmetic shift is the division that rounds toward minus infinity (R78, R92). -/
theorem sshiftRight_eq_u32 : a.sshiftRight k = u32 (a.toInt.fdiv (2 ^ k)) := by
  rw [BitVec.sshiftRight_eq, Int.shiftRight_eq_div_pow, Int.fdiv_eq_ediv_of_nonneg _ (by positivity), u32]
  push_cast
  rfl

theorem flagWord_lessSigned : flagWord (lessSigned a b) = if a.toInt < b.toInt then 1#32 else 0#32 := by
  simp only [flagWord, lessSigned, BitVec.slt_iff_toInt_lt]

theorem flagWord_lessUnsigned : flagWord (lessUnsigned a b) = if a.toNat < b.toNat then 1#32 else 0#32 := by
  simp only [flagWord, lessUnsigned, BitVec.ult_iff_toNat_lt]

end Arithmetic

/-- An instruction that writes one result and falls through changes its destination and the pc alone (R70). -/
theorem writesRegister_of_result {s : State} {o : Host.Outcome State Fault Refusal} {rd : RegIdx} {v result : Word}
    (e : o = .next (s.writeReg rd result).advancePc) (h : result = v) : WritesRegister s o rd v (s.pc + 4#32) := by
  subst h
  have mem : SameMemory s (s.writeReg rd result).advancePc := .of_mem_eq (s.writeReg_mem rd result)
  exact ⟨_, e, fun r => s.readReg_writeReg rd r result, by simp [mem, SameBus, SameReports]⟩

/-- Settles O11: the encoder's own word, and the sum and the difference of the two numbers. -/
theorem addAndSub : Obligations.AddAndSub := fun rd rs1 rs2 _ =>
  ⟨decodeWord_encode (i := .add rd rs1 rs2) rfl, writesRegister_of_result rfl (add_eq_u32 _ _),
    decodeWord_encode (i := .sub rd rs1 rs2) rfl, writesRegister_of_result rfl (sub_eq_u32 _ _)⟩

/-- Settles O12: the results are the model's bitwise operations themselves. -/
theorem xorOrAnd : Obligations.XorOrAnd := fun rd rs1 rs2 _ =>
  ⟨decodeWord_encode (i := .xor rd rs1 rs2) rfl, writesRegister_of_result rfl rfl,
    decodeWord_encode (i := .or rd rs1 rs2) rfl, writesRegister_of_result rfl rfl,
    decodeWord_encode (i := .and rd rs1 rs2) rfl, writesRegister_of_result rfl rfl⟩

/-- Settles O13: the amount is a remainder, and a shift by it multiplies or divides by a power of two. -/
theorem registerShifts : Obligations.RegisterShifts := by
  intro rd rs1 rs2 s a k
  have amount : shiftAmount (s.readReg rs2) = k := shiftAmount_eq_mod _
  exact ⟨decodeWord_encode (i := .sll rd rs1 rs2) rfl, writesRegister_of_result rfl (amount ▸ shiftLeft_eq_u32 a _),
    decodeWord_encode (i := .srl rd rs1 rs2) rfl, writesRegister_of_result rfl (amount ▸ ushiftRight_eq_u32 a _),
    decodeWord_encode (i := .sra rd rs1 rs2) rfl, writesRegister_of_result rfl (amount ▸ sshiftRight_eq_u32 a _)⟩

/-- Settles O14: the two comparisons are the orders of the signed and of the unsigned numbers. -/
theorem registerComparisons : Obligations.RegisterComparisons := fun rd rs1 rs2 _ =>
  ⟨decodeWord_encode (i := .slt rd rs1 rs2) rfl, writesRegister_of_result rfl (flagWord_lessSigned _ _),
    decodeWord_encode (i := .sltu rd rs1 rs2) rfl, writesRegister_of_result rfl (flagWord_lessUnsigned _ _)⟩

/-! The function pairs that are none of the ten (R81). -/

theorem decodeRegister_reserved {w : Word} (h7 : fieldFunct7 w ≠ 0b0000000#7)
    (h7' : ¬(fieldFunct7 w = 0b0100000#7 ∧ (fieldFunct3 w = 0b000#3 ∨ fieldFunct3 w = 0b101#3))) :
    decodeRegister w = .error .reservedRegisterFunction := by
  unfold decodeRegister
  split
  case h_2 h3 alternate => exact absurd ⟨alternate, .inl h3⟩ h7'
  case h_8 h3 alternate => exact absurd ⟨alternate, .inr h3⟩ h7'
  case h_11 => rfl
  all_goals contradiction

/-- Settles O9: such a word is rejected, and a rejected word faults. -/
theorem unlistedRegisterFunctionFaults : Obligations.UnlistedRegisterFunctionFaults :=
  fun _ _ hf held ho h7 h7' =>
    step_faults_of_rejected hf held ((decodeWord_register ho).trans (decodeRegister_reserved h7 h7'))

end Sys2Proof.Machine
end

