-- ==== Sys2Proof/Proofs/AluImmediate.lean ====
section
/-! SUPPORT. The register-immediate instructions (42_alu_immediate.md R84 to R92): the words of the I format, and the
number that a sign-extended field stands for, as a signed and as an unsigned word. -/

namespace Sys2Proof.Machine

section
variable (f : BitVec 12)

/-- A word of the I format holds the field whose sign extension is the operand (R45). -/
theorem decodeWord_signExtend {i : Instr} {rd rs1 : RegIdx} {f3 : BitVec 3} {op : BitVec 7}
    (word : encode i = encodeI (f.signExtend 32) rs1 f3 rd op) (ok : i.wellFormed = imm12Ok (f.signExtend 32)) :
    decodeWord (f ++ rs1 ++ f3 ++ rd ++ op : Word) = .ok i := by
  rw [← encodeI_signExtend, ← word]
  exact decodeWord_encode (ok.trans (imm12Ok_signExtend f))

/-- Sign extension is the word of the signed number. -/
theorem signExtend_eq_u32 : f.signExtend 32 = u32 f.toInt := rfl

/-- Adding the sign-extended field adds its signed number (R84). -/
theorem add_signExtend_eq_u32 (a : Word) : a + f.signExtend 32 = u32 (a.toNat + f.toInt) := by
  rw [u32_add, u32_toNat, signExtend_eq_u32]

/-- As an unsigned number, the sign extension of a negative field stands 2^32 above the field (D15). -/
theorem toNat_signExtend :
    ((f.signExtend 32).toNat : Int) = if f.toInt < 0 then 2 ^ 32 + f.toInt else f.toInt := by
  have low := BitVec.le_toInt f
  have high := BitVec.toInt_lt (x := f)
  rw [signExtend_eq_u32, u32, BitVec.toNat_ofInt]
  split <;> omega

/-- Signed, the sign extension compares as its field (R85). -/
theorem flagWord_lessSigned_signExtend (a : Word) :
    flagWord (lessSigned a (f.signExtend 32)) = if a.toInt < f.toInt then 1#32 else 0#32 := by
  rw [flagWord_lessSigned, BitVec.toInt_signExtend_of_le (by decide)]

/-- Unsigned, the sign extension compares as the number of `toNat_signExtend` (R86, D15). -/
theorem flagWord_lessUnsigned_signExtend (a : Word) : flagWord (lessUnsigned a (f.signExtend 32)) =
    if (a.toNat : Int) < (if f.toInt < 0 then 2 ^ 32 + f.toInt else f.toInt) then 1#32 else 0#32 := by
  simp only [flagWord_lessUnsigned, ← toNat_signExtend, Nat.cast_lt]

end

/-- Settles O15: the sum adds the field's number, the bitwise results take the word of that number. -/
theorem immediateArithmeticAndLogic : Obligations.ImmediateArithmeticAndLogic := fun rd rs1 f _ =>
  ⟨decodeWord_signExtend f (i := .addi rd rs1 _) rfl rfl, writesRegister_of_result rfl (add_signExtend_eq_u32 f _),
    decodeWord_signExtend f (i := .xori rd rs1 _) rfl rfl, writesRegister_of_result rfl (by rw [signExtend_eq_u32]),
    decodeWord_signExtend f (i := .ori rd rs1 _) rfl rfl, writesRegister_of_result rfl (by rw [signExtend_eq_u32]),
    decodeWord_signExtend f (i := .andi rd rs1 _) rfl rfl, writesRegister_of_result rfl (by rw [signExtend_eq_u32])⟩

/-- Settles O16: sign extension keeps the signed number. -/
theorem sltiComparesSigned : Obligations.SltiComparesSigned := fun rd rs1 f _ =>
  ⟨decodeWord_signExtend f (i := .slti rd rs1 _) rfl rfl,
    writesRegister_of_result rfl (flagWord_lessSigned_signExtend f _)⟩

/-- Settles O17: sign extension takes a negative field to 2^32 less its size. -/
theorem sltiuComparesTheSignExtensionUnsigned : Obligations.SltiuComparesTheSignExtensionUnsigned :=
  fun rd rs1 f _ =>
    ⟨decodeWord_signExtend f (i := .sltiu rd rs1 _) rfl rfl,
      writesRegister_of_result rfl (flagWord_lessUnsigned_signExtend f _)⟩

/-- Settles O18: the amount is the field itself, so the shifts are those of the register form without the mask. -/
theorem immediateShifts : Obligations.ImmediateShifts := fun rd rs1 shamt _ =>
  ⟨decodeWord_encode (i := .slli rd rs1 shamt) rfl, writesRegister_of_result rfl (shiftLeft_eq_u32 _ _),
    decodeWord_encode (i := .srli rd rs1 shamt) rfl, writesRegister_of_result rfl (ushiftRight_eq_u32 _ _),
    decodeWord_encode (i := .srai rd rs1 shamt) rfl, writesRegister_of_result rfl (sshiftRight_eq_u32 _ _)⟩

end Sys2Proof.Machine
end

