-- ==== Sys2Proof/Proofs/LoadsAndStores.lean ====
section
/-! SUPPORT. The load instructions over the memory accesses, where they complete and where they fault, and the stores
that complete (43_loads_stores.md R94 to R105): the extended datum as a number, and the frames of both. -/

namespace Sys2Proof.Machine

/-! The low bits of a word, extended (R95 to R99), as numbers. -/

section Extension
variable {n k : Nat}

theorem toNat_setWidth_u32 (hn : n < 2 ^ k) (hk : k ≤ 32) : ((u32 n).setWidth k).toNat = n := by
  rw [u32_natCast, BitVec.setWidth_ofNat_of_le hk, BitVec.toNat_ofNat, Nat.mod_eq_of_lt hn]

theorem zeroExtend_eq_u32 (v : Word) (hk : k ≤ 32) : (v.setWidth k).setWidth 32 = u32 (v.toNat % 2 ^ k : Nat) :=
  eq_u32_of_toNat (by rw [BitVec.toNat_setWidth_of_le hk, BitVec.toNat_setWidth])

theorem zeroExtend_u32 (hn : n < 2 ^ k) (hk : k ≤ 32) : ((u32 n).setWidth k).setWidth 32 = u32 n := by
  rw [zeroExtend_eq_u32 _ hk, ← BitVec.toNat_setWidth, toNat_setWidth_u32 hn hk]

/-- Sign extension subtracts 2^(k+1) where bit `k` is set. -/
theorem signExtend_u32 (hn : n < 2 ^ (k + 1)) (hk : k + 1 ≤ 32) :
    ((u32 n).setWidth (k + 1)).signExtend 32 = u32 (if n < 2 ^ k then (n : Int) else n - 2 ^ (k + 1)) := by
  have sign : 2 * n < 2 ^ (k + 1) ↔ n < 2 ^ k := by omega
  rw [show ((u32 n).setWidth (k + 1)).signExtend 32 = u32 ((u32 n).setWidth (k + 1)).toInt from rfl,
    BitVec.toInt_eq_toNat_cond, toNat_setWidth_u32 hn hk, Nat.cast_pow, Nat.cast_ofNat]
  simp only [sign]

end Extension

/-! Reads: what a byte read gives, and where a read fails. -/

theorem State.byteNat_lt (s : State) (a : Word) : s.byteNat a < 2 ^ 8 := by
  unfold State.byteNat
  split
  · next b _ => exact b.isLt
  · decide

/-- A byte read, as the halfword and word reads are given (R28). -/
theorem memRead_byte_below (s : State) {a : Word} (h : a.toNat + 1 ≤ 0xA0000) :
    memRead s.capacity s.mem a .byte = .ok (u32 (s.byteNat a)) := by
  obtain ⟨b, e, v⟩ := s.byteAt_below h
  rw [memRead_byte_of_some _ e, v, eq_u32_of_toNat (BitVec.toNat_setWidth_of_le (by decide))]

theorem memRead_of_preCheckFails {cap : Nat} {m : Memory} {a : Word} {n : Width} (h : preCheckFails cap a n = true) :
    memRead cap m a n = .error (.outOfBounds a) := by
  simp [memRead, h]

/-- A read that passes its pre-check and reaches 0xA0000 fails at its first byte with no region (R28; D12, log 14). -/
theorem memRead_reaching (s : State) {a : Word} {n : Width} (passes : preCheckFails s.capacity a n = false)
    (reaches : 0xA0000 < a.toNat + n.bytes) :
    memRead s.capacity s.mem a n = .error (.outOfBounds (u32 (max a.toNat 0xA0000 : Nat))) := by
  obtain ⟨k, hk⟩ : ∃ k, n.bytes = k + 1 := by cases n <;> exact ⟨_, rfl⟩
  rw [memRead_of_passes passes, hk, readBytes_reaching k s a (by omega)]

/-! How a load ends, and how a store that completes does. -/

section Instruction
variable {s : State} {n : Width} {ext : Word → Word} {rd rs1 rs2 : RegIdx} {imm data v : Word} {f : FaultCause}

/-- A load whose read completes writes the extended datum (R94). -/
theorem loadInto_loads (h : memRead s.capacity s.mem (s.readReg rs1 + imm) n = .ok data) (hv : ext data = v) :
    Loads s (loadInto n ext rd rs1 imm s) (s.readReg rs1 + imm) data rd v := by
  subst hv
  refine ⟨_, loadInto_of_done h, fun r => ?_, ?_⟩
  · rw [State.advancePc_readReg, State.readReg_writeReg, State.busDone_readReg]
  · simp [SameMemory.of_mem_eq, BusShows, SameReports]

theorem loadInto_of_failed (h : memRead s.capacity s.mem (s.readReg rs1 + imm) n = .error f) :
    loadInto n ext rd rs1 imm s = .next ((s.busFailed (s.readReg rs1 + imm)).takeFault f) := by
  simp only [loadInto, busRead, effectiveAddress, h, complete_fault]

/-- A load whose read fails faults with the read's cause and changes nothing else but the bus record (R105, R131). -/
theorem loadInto_accessFaults (h : memRead s.capacity s.mem (s.readReg rs1 + imm) n = .error f) :
    AccessFaults s (loadInto n ext rd rs1 imm s) (s.readReg rs1 + imm) f [] :=
  ⟨_, loadInto_of_failed h, rfl, rfl, fun _ => rfl, fun _ => rfl, rfl, rfl, rfl⟩

/-- A store whose bytes all have a region completes with its bytes written (R101 to R103; the datum is D14, log 17). -/
theorem storeFrom_stores (hs : Inv s) (h : (s.readReg rs1 + imm).toNat + n.bytes ≤ 0xA0000)
    (datum : n.truncate (s.readReg rs2) = data) :
    Stores s (storeFrom n rs1 rs2 imm s) (s.readReg rs1 + imm) data
      (storeBytes (s.readReg rs1 + imm) (s.readReg rs2) n) := by
  subst datum
  obtain ⟨m, e, _, bytes⟩ := memWrite_below hs (s.readReg rs2) h
  exact ⟨_, storeFrom_of_done e, fun _ => rfl, rfl, rfl, bytes, ⟨rfl, rfl, rfl⟩, ⟨rfl, rfl⟩, rfl⟩

end Instruction

/-- Settles O20: the read gives the little-endian number, and the extensions are those of a number below 2^8 or 2^16. -/
theorem loadsReadMemory : Obligations.LoadsReadMemory := by
  intro rd rs1 imm s hc a b0 h w
  have byte : b0 < 2 ^ 8 := s.byteNat_lt a
  have half : h < 2 ^ 16 := by
    have := s.byteNat_lt (a + 1#32)
    omega
  refine ⟨fun inside => ?_, fun inside => ?_, fun inside => loadInto_loads (memRead_word_below hc inside) rfl⟩
  · have read := memRead_byte_below s inside
    exact ⟨loadInto_loads read (signExtend_u32 byte (by decide)), loadInto_loads read (zeroExtend_u32 byte (by decide))⟩
  · have read := memRead_half_below hc inside
    exact ⟨loadInto_loads read (signExtend_u32 half (by decide)), loadInto_loads read (zeroExtend_u32 half (by decide))⟩

/-- Settles O21: the one byte of LB and LBU, and for the others the pre-check, or the first byte with no region. -/
theorem loadsOutOfBoundsFault : Obligations.LoadsOutOfBoundsFault := by
  intro rd rs1 imm s a firstBad
  refine ⟨fun beyond => ?_, fun fails => ?_, fun passes reaches => ?_, fun fails => ?_, fun passes reaches => ?_⟩
  · have failed := memRead_byte_of_none s.capacity (readByte_beyond s.mem beyond)
    exact ⟨loadInto_accessFaults failed, loadInto_accessFaults failed⟩
  · have failed : memRead s.capacity s.mem a .half = _ := memRead_of_preCheckFails (decide_eq_true fails)
    exact ⟨loadInto_accessFaults failed, loadInto_accessFaults failed⟩
  · have failed := memRead_reaching s (n := .half) (preCheckFails_of_le passes) (Nat.lt_succ_of_le reaches)
    exact ⟨loadInto_accessFaults failed, loadInto_accessFaults failed⟩
  · exact loadInto_accessFaults (memRead_of_preCheckFails (decide_eq_true fails))
  · exact loadInto_accessFaults
      (memRead_reaching s (n := .word) (preCheckFails_of_le passes) (Nat.lt_succ_of_le reaches))

/-- Settles O22: the write completes, and the datum on the bus is what the width keeps of the register. -/
theorem storesWriteMemory : Obligations.StoresWriteMemory := fun _ _ _ _ hs =>
  ⟨fun inside => storeFrom_stores hs inside (zeroExtend_eq_u32 _ (by decide)),
    fun inside => storeFrom_stores hs inside (zeroExtend_eq_u32 _ (by decide)),
    fun inside => storeFrom_stores hs inside rfl⟩

end Sys2Proof.Machine
end

