-- ==== Sys2Proof/Proofs/ControlTransfer.lean ====
section
/-! SUPPORT. Control transfer (44_control_transfer.md R106 to R115): the targets in numbers, the predicates that decide a
branch, and what a branch and a jump change. -/

namespace Sys2Proof.Machine

/-! The targets and the predicates in numbers. -/

section Arithmetic
variable (a b v : Word)

theorem add_eq_u32_toInt : a + b = u32 (a.toNat + b.toInt) := by
  rw [u32_add, u32_toNat, u32, BitVec.ofInt_toInt]

/-- Clearing bit 0 gives the largest even number that is not above (R107). -/
theorem clearBit0_eq_u32 : v &&& 0xFFFFFFFE#32 = u32 (2 * (v.toNat / 2) : Nat) := by
  calc v &&& 0xFFFFFFFE#32 = v &&& (BitVec.allOnes 32 <<< 1) := rfl
    _ = (v >>> 1) <<< 1 := BitVec.shiftLeft_ushiftRight.symm
    _ = u32 (2 * (v.toNat / 2) : Nat) := by
      rw [shiftLeft_eq_u32, BitVec.toNat_ushiftRight, Nat.shiftRight_eq_div_pow, pow_one, mul_comm]

theorem not_lessSigned_iff : (!lessSigned a b) = true ↔ b.toInt ≤ a.toInt := by
  rw [lessSigned, Bool.not_eq_true', ← Bool.not_eq_true, BitVec.slt_iff_toInt_lt, not_lt]

theorem not_lessUnsigned_iff : (!lessUnsigned a b) = true ↔ b.toNat ≤ a.toNat := by
  rw [lessUnsigned, Bool.not_eq_true', ← Bool.not_eq_true, BitVec.ult_iff_toNat_lt, not_lt]

end Arithmetic

/-! What a branch and a jump change. -/

section Instruction
variable {s : State} {imm : Word}

theorem onlyMovesPc_advancePc (s : State) : OnlyMovesPc s (.next s.advancePc) (s.pc + 4#32) :=
  ⟨_, rfl, fun _ => rfl, rfl, rfl, .of_mem_eq rfl, ⟨rfl, rfl, rfl⟩, ⟨rfl, rfl⟩, rfl⟩

theorem onlyMovesPc_jumpTo (s : State) (target : Word) : OnlyMovesPc s (.next (s.jumpTo target)) target :=
  ⟨_, rfl, fun _ => rfl, rfl, rfl, .of_mem_eq rfl, ⟨rfl, rfl, rfl⟩, ⟨rfl, rfl⟩, rfl⟩

/-- A branch decided by `p` moves the pc alone: to its target where `p` holds, past itself otherwise (R106). -/
theorem branchIf_onlyMovesPc {taken : Bool} {p : Prop} [Decidable p] (h : taken = true ↔ p) :
    OnlyMovesPc s (branchIf taken imm s) (if p then u32 (s.pc.toNat + imm.toInt) else s.pc + 4#32) := by
  rw [branchIf_eq, ← add_eq_u32_toInt]
  by_cases hp : p
  · rw [if_pos (h.mpr hp), if_pos hp]
    exact onlyMovesPc_jumpTo s _
  · rw [if_neg (mt h.mp hp), if_neg hp]
    exact onlyMovesPc_advancePc s

/-- A jump writes the link to its destination and moves the pc to its target (R107, R115). -/
theorem linkAndJump_writesRegister {rd : RegIdx} {target pc : Word} (h : target = pc) :
    WritesRegister s (linkAndJump rd target s) rd (s.pc + 4#32) pc := by
  subst h
  have mem : SameMemory s ((s.writeReg rd (s.pc + 4#32)).jumpTo target) := .of_mem_eq (s.writeReg_mem rd _)
  exact ⟨_, rfl, fun r => s.readReg_writeReg rd r _, by simp [mem, linkValue, SameBus, SameReports]⟩

/-- JALR's target as a number: the sum modulo 2^32, bit 0 cleared (R107; D4, log 10). -/
theorem jalrTarget_eq_u32 (rs1 : RegIdx) :
    jalrTarget s rs1 imm = u32 (2 * (((s.readReg rs1).toNat + imm.toNat) % 2 ^ 32 / 2) : Nat) := by
  rw [jalrTarget, clearBit0_eq_u32, BitVec.toNat_add]

end Instruction

/-- Settles O30: each branch is the shared one under its own predicate; BNE's is the negation of BEQ's. -/
theorem branchesJumpOrFallThrough : Obligations.BranchesJumpOrFallThrough := by
  intro rs1 rs2 imm s a b target next
  have bne : OnlyMovesPc s (exec (.bne rs1 rs2 imm) s) (if ¬a = b then target else next) :=
    branchIf_onlyMovesPc bne_iff_ne
  exact ⟨branchIf_onlyMovesPc beq_iff_eq, ite_not (a = b) target next ▸ bne,
    branchIf_onlyMovesPc BitVec.slt_iff_toInt_lt, branchIf_onlyMovesPc (not_lessSigned_iff a b),
    branchIf_onlyMovesPc BitVec.ult_iff_toNat_lt, branchIf_onlyMovesPc (not_lessUnsigned_iff a b)⟩

/-- Settles O31: both jumps end alike, and the target is computed before the link is written. -/
theorem jumpsLinkAndJump : Obligations.JumpsLinkAndJump := fun _ rs1 imm s =>
  ⟨linkAndJump_writesRegister (add_eq_u32_toInt s.pc imm), linkAndJump_writesRegister (jalrTarget_eq_u32 rs1)⟩

end Sys2Proof.Machine
end

