-- ==== Sys2Proof/Proofs/UpperImmediate.lean ====
section
/-! SUPPORT. LUI and AUIPC (45_upper_immediate.md R117, R118): the words of the U format, and the number that a field in
its place stands for. -/

namespace Sys2Proof.Machine

section
variable (f : BitVec 20)

/-- A field in its place has zeros below it (R49). -/
theorem immUOk_append_zero : immUOk (f ++ 0#12) = true := by
  rw [immUOk, toNat_append_add]
  simp

/-- A word of the U format holds the upper 20 bits of the operand (R49). -/
theorem decodeWord_append_zero {i : Instr} {rd : RegIdx} {op : BitVec 7}
    (word : encode i = encodeU (f ++ 0#12) rd op) (ok : i.wellFormed = immUOk (f ++ 0#12)) :
    decodeWord (f ++ rd ++ op : Word) = .ok i := by
  have encoded : encodeU (f ++ 0#12) rd op = f ++ rd ++ op := by
    rw [encodeU, BitVec.extractLsb'_append_eq_left]
  rw [← encoded, ← word]
  exact decodeWord_encode (ok.trans (immUOk_append_zero f))

/-- A field in its place stands for the field times 2^12 (R117). -/
theorem append_zero_eq_u32 : f ++ 0#12 = u32 (f.toNat * 2 ^ 12 : Nat) :=
  eq_u32_of_toNat (by rw [toNat_append_add, BitVec.toNat_zero, Nat.add_zero, Nat.mul_comm])

/-- Adding a field in its place adds the field times 2^12 (R118). -/
theorem add_append_zero_eq_u32 (a : Word) : a + (f ++ 0#12) = u32 (a.toNat + f.toNat * 2 ^ 12 : Nat) := by
  rw [append_zero_eq_u32, Nat.cast_add, u32_add, u32_toNat]

end

/-- Settles O19: the word holds the field, and the field in its place is the number that LUI writes and AUIPC adds. -/
theorem luiAndAuipc : Obligations.LuiAndAuipc := fun rd f s =>
  ⟨decodeWord_append_zero f (i := .lui rd _) rfl rfl, writesRegister_of_result rfl (append_zero_eq_u32 f),
    decodeWord_append_zero f (i := .auipc rd _) rfl rfl, writesRegister_of_result rfl (add_append_zero_eq_u32 f s.pc)⟩

end Sys2Proof.Machine
end

