-- ==== Sys2Proof/Proofs/SystemInstructions.lean ====
section
/-! SUPPORT. The system instructions and the zero word (46_system.md R119 to R122): which words and which instructions end
a run, and the zero words of the reserved region (20_memory.md R34). -/

namespace Sys2Proof.Machine

/-- The zero word alone decodes to `halt` (R56; log 20). -/
theorem decodeWord_eq_halt_iff {w : Word} : decodeWord w = .ok .halt ↔ w = 0#32 :=
  ⟨fun h => (encodes_of_decodeWord h).2.symm, fun zero => if_pos zero⟩

/-- An instruction of a Running machine that ends in a halt is the one that halts with that cause (R127). -/
theorem haltsWith_of_exec {i : Instr} {s t : State} {c : HaltCause} (running : s.status = .running)
    (e : exec i s = .next t) (halted : t.status = .halted c) : HaltsWith i c := by
  rcases exec_next_cases e with ⟨_, _, _, rfl, _⟩ | ⟨_, _, _, _, rfl, _⟩ | ⟨rfl, _⟩ | ⟨_, rfl, _⟩ |
    ⟨_, _, _, _, _, rfl, _⟩ | ⟨_, _, _, _, rfl, _⟩ | ⟨_, _, _, _, _, _, rfl, _⟩ | ⟨_, _, _, _, _, _, rfl, _⟩ |
    ⟨_, halts, rfl, _⟩ | ⟨_, rfl, _⟩
  iterate 8 · simp [running] at halted
  · cases halted
    exact halts
  · simp [running] at halted

/-- R64: the step that fetches the zero word is the halt after the fetch transaction. -/
theorem step_zeroWord {s : State} (hf : Fetching s) (held : AtPc s 0#32) :
    step s = .next ((s.busDone s.pc 0#32).takeHalt .zeroWord) :=
  step_of_atPc hf held (decodeWord_eq_halt_iff.2 rfl)

/-- R64: no step that fetches another word halts with ZeroWord, whether the word decodes or not. -/
theorem eq_zero_of_step_halted {s t : State} {w : Word} (hf : Fetching s) (held : AtPc s w) (e : step s = .next t)
    (halted : t.status = .halted .zeroWord) : w = 0#32 := by
  cases decoded : decodeWord w with
  | error r =>
    obtain ⟨u, e', faulted, _⟩ := step_faults_of_rejected hf held decoded
    cases e.symm.trans e'
    cases halted.symm.trans faulted
  | ok i =>
    have ran : exec i (s.busDone s.pc w) = .next t := (step_of_atPc hf held decoded).symm.trans e
    rcases haltsWith_of_exec (s := s.busDone s.pc w) hf.1 ran halted with ⟨_, cause⟩ | ⟨_, cause⟩ | ⟨rfl, _⟩
    · cases cause
    · cases cause
    · exact decodeWord_eq_halt_iff.1 decoded

/-- R34: a word inside the reserved region is the zero word. -/
theorem atPc_zero_of_reserved {s : State} (low : 0x90000 ≤ s.pc.toNat) (high : s.pc.toNat + 3 ≤ 0x9FBFF) :
    AtPc s 0#32 := by
  have byte (k : Nat) (hk : k ≤ 3) : s.byteAt (s.pc + BitVec.ofNat 32 k) = some 0#8 := by
    have place := toNat_add_ofNat s.pc k (by omega)
    exact readByte_reserved s.mem (by omega) (by omega)
  exact ⟨readByte_reserved s.mem low (by omega), byte 1 (by decide), byte 2 (by decide), byte 3 (by decide)⟩

/-- Settles O35: `halt` is the one instruction with this cause and the zero word its one encoding; opcode 0000000 is
unknown. -/
theorem zeroWordHalts : Obligations.ZeroWordHalts := by
  refine ⟨fun s => onlyHalts_takeHalt s .zeroWord, fun w s hf held => ⟨⟨?_, ?_⟩, ?_, fun zero opcode => ?_⟩,
    fun _ => atPc_zero_of_reserved⟩
  · rintro ⟨t, e, halted⟩
    exact eq_zero_of_step_halted hf held e halted
  · rintro rfl
    exact ⟨_, step_zeroWord hf held, rfl⟩
  · rintro rfl
    exact step_zeroWord hf held ▸ onlyHalts_takeHalt _ .zeroWord
  · have unknown : fieldOpcode w ∉ knownOpcodes := opcode ▸ by decide
    obtain ⟨t, e, faulted, _⟩ := step_faults_of_rejected hf held (decodeWord_unknownOpcode_iff.2 ⟨zero, unknown⟩)
    exact ⟨t, e, faulted⟩

/-- Settles O33: each of the two words is the encoding of its instruction, which takes its own halt. -/
theorem ecallAndEbreakHalt : Obligations.EcallAndEbreakHalt :=
  ⟨decodeWord_encode (i := .ecall) rfl, decodeWord_encode (i := .ebreak) rfl,
    fun s => ⟨onlyHalts_takeHalt s .ecall, onlyHalts_takeHalt s .ebreak⟩⟩

/-- Settles O34: such a word is its own encoding, and the instruction reports it and falls through. -/
theorem otherSystemWordsReportAndContinue : Obligations.OtherSystemWordsReportAndContinue :=
  fun w s opcode notEcall notEbreak =>
    ⟨decodeWord_encode (i := .systemOther w) ((systemOtherOk_iff w).2 ⟨opcode, notEcall, notEbreak⟩),
      (s.report (.unrecognizedSystem w)).advancePc, rfl, fun _ => rfl, .of_mem_eq rfl, rfl, rfl, ⟨rfl, rfl, rfl⟩, rfl, rfl,
      rfl⟩

end Sys2Proof.Machine
end

