-- ==== Sys2Proof/Proofs/Exceptions.lean ====
section
/-! SUPPORT. Faults and halts (60_exceptions.md R124 to R132): every step answers a state, a machine that is not Running
stays as it is, and what a step that ends the run leaves. -/

namespace Sys2Proof.Machine

/-! Every step of a machine the spec defines answers a state (R124, D1). -/

theorem step_next {s : State} (cap : Config.minCapacity ≤ s.capacity) : ∃ t, step s = .next t := by
  rcases step_cases s with ⟨low, _⟩ | ⟨_, _, e⟩ | ⟨_, _, ⟨_, e⟩ | ⟨_, ⟨_, _, e⟩ | ⟨_, _, _, _, e⟩ | ⟨w, i, _, _, e⟩⟩⟩
  · exact absurd cap (Nat.not_le.2 low)
  · exact ⟨_, e⟩
  · exact ⟨_, e⟩
  · exact ⟨_, e⟩
  · exact ⟨_, e⟩
  · exact (exec_next i (s.busDone s.pc w)).imp fun _ => e.trans

theorem step_of_small_capacity {s : State} (low : s.capacity < Config.minCapacity) :
    step s = .refused .capacityBelowMinimum := by
  rcases step_cases s with ⟨_, e⟩ | ⟨cap, _⟩ | ⟨cap, _⟩
  · exact e
  · exact absurd low (Nat.not_lt.2 cap)
  · exact absurd low (Nat.not_lt.2 cap)

/-- Settles O41, by the instructions' answer and the cases of the step. -/
theorem everyStepAnswersAState : Obligations.EveryStepAnswersAState :=
  ⟨exec_next, fun _ => ⟨step_next, step_of_small_capacity⟩⟩

/-! Halted and Faulted absorb (R132, D11). -/

theorem step_of_stopped {s : State} (cap : Config.minCapacity ≤ s.capacity) (stopped : s.status ≠ .running) :
    step s = .next s := by
  rcases step_cases s with ⟨low, _⟩ | ⟨_, _, e⟩ | ⟨_, running, _⟩
  · exact absurd cap (Nat.not_le.2 low)
  · exact e
  · exact absurd running stopped

/-- Settles O39: neither a step nor a run begins a cycle outside Running. -/
theorem haltedAndFaultedAbsorb : Obligations.HaltedAndFaultedAbsorb :=
  fun k _ cap stopped => ⟨step_of_stopped cap stopped, run_of_stopped k stopped⟩

/-! The end of a run (R131). -/

/-- What the end of a run leaves: everything a program sees but the status, and memory too unless a store's memory call
is the fault, which may have written before it failed (R29). -/
def EndsPrecisely (s t : State) : Prop :=
  t.pc = s.pc ∧ SameRegs s t ∧ SameReports s t ∧
    (t.mem = s.mem ∨ ∃ a n v f, memWrite s.capacity s.mem a n v = (t.mem, some f) ∧ t.status = .faulted f)

/-- A halt, an illegal instruction, a failed fetch and a failed load change the status and the bus record alone. -/
theorem endsPrecisely_statusAndBus (s : State) (status : RunStatus) (addr data : Word) (ctrl : BusCtrl) (count : Nat) :
    EndsPrecisely s
      { s with status := status, busAddr := addr, busData := data, busCtrl := ctrl, freeCount := count } :=
  ⟨rfl, fun _ => rfl, ⟨rfl, rfl⟩, .inl rfl⟩

/-- A failed store. -/
theorem endsPrecisely_of_memWrite {s : State} {m : Memory} {a v : Word} {n : Width} {f : FaultCause}
    (failed : memWrite s.capacity s.mem a n v = (m, some f)) (b : Word) :
    EndsPrecisely s (({ s with mem := m }.busFailed b).takeFault f) :=
  ⟨rfl, fun _ => rfl, ⟨rfl, rfl⟩, .inr ⟨a, n, v, f, failed, rfl⟩⟩

/-- An instruction ends the run by a failed load, a failed store or a halt; every other end of an instruction keeps the
status (R8). -/
theorem exec_endsPrecisely {i : Instr} {s t : State} (e : exec i s = .next t) (running : s.status = .running)
    (ended : t.status ≠ .running) : EndsPrecisely s t := by
  rcases exec_next_cases e with ⟨_, _, _, rfl, _⟩ | ⟨_, _, _, _, rfl, _⟩ | ⟨rfl, _⟩ | ⟨_, rfl, _⟩ |
    ⟨_, _, _, _, _, rfl, _⟩ | ⟨_, _, _, _, rfl, _⟩ | ⟨_, _, _, _, _, _, rfl, _⟩ | ⟨_, _, _, _, _, failed, rfl, _⟩ |
    ⟨_, _, rfl, _⟩ | ⟨_, rfl, _⟩
  · simp [running] at ended
  · simp [running] at ended
  · simp [running] at ended
  · simp [running] at ended
  · simp [running] at ended
  · exact endsPrecisely_statusAndBus s ..
  · simp [running] at ended
  · exact endsPrecisely_of_memWrite failed _
  · exact endsPrecisely_statusAndBus s ..
  · simp [running] at ended

/-- The same of a step: the fetch before the instruction changes the bus record alone. -/
theorem step_endsPrecisely {s t : State} (e : step s = .next t) (running : s.status = .running)
    (ended : t.status ≠ .running) : EndsPrecisely s t := by
  rcases step_cases s with ⟨_, e'⟩ | ⟨_, stopped, _⟩ |
    ⟨_, _, ⟨_, e'⟩ | ⟨_, ⟨_, _, e'⟩ | ⟨_, _, _, _, e'⟩ | ⟨w, i, _, _, e'⟩⟩⟩
  · cases e.symm.trans e'
  · exact absurd running stopped
  · cases e.symm.trans e'
    exact endsPrecisely_statusAndBus s ..
  · cases e.symm.trans e'
    exact endsPrecisely_statusAndBus s ..
  · cases e.symm.trans e'
    exact endsPrecisely_statusAndBus s ..
  · exact exec_endsPrecisely (s := s.busDone s.pc w) (e'.symm.trans e) running ended

/-- At the smallest capacity the pre-check finds every halfword and word access that reaches 0xA0000, and a byte access
fails before it writes: no failed write leaves a byte behind (R27, R29). -/
theorem memWrite_failed_minCapacity {s : State} (hs : Inv s) (smallest : s.capacity = Config.minCapacity) {m : Memory}
    {a v : Word} {n : Width} {f : FaultCause} (failed : memWrite s.capacity s.mem a n v = (m, some f)) : m = s.mem := by
  have reaches : 0xA0000 < a.toNat + n.bytes := by
    by_contra below
    obtain ⟨_, done, _⟩ := memWrite_below hs v (Nat.not_lt.1 below)
    cases done.symm.trans failed
  have untouched : memWrite s.capacity s.mem a n v = (s.mem, some (.outOfBounds a)) := by
    rw [smallest]
    cases n with
    | byte => exact memWrite_byte_of_none _ (writeByte_beyond s.mem _ (Nat.le_of_lt_succ reaches))
    | half => exact memWrite_of_preCheckFails (decide_eq_true (Nat.le_of_lt_succ reaches))
    | word => exact memWrite_of_preCheckFails (decide_eq_true (Nat.le_of_lt_succ reaches))
  exact (congrArg Prod.fst (untouched.symm.trans failed)).symm

/-- Settles O48, by the end of the step: only a store's memory call writes, its failure is OutOfBounds, and it has
written nothing where the capacity is the smallest. -/
theorem haltsAndFaultsArePrecise : Obligations.HaltsAndFaultsArePrecise := by
  intro s t hs running e ended
  obtain ⟨pc, regs, reports, same | ⟨_, _, _, _, failed, status⟩⟩ := step_endsPrecisely e running ended
  · exact ⟨pc, regs, reports, fun _ => .of_mem_eq same, fun _ => .of_mem_eq same⟩
  · obtain ⟨x, rfl⟩ := memWrite_error failed
    exact ⟨pc, regs, reports, fun other => absurd status (other x),
      fun smallest => .of_mem_eq (memWrite_failed_minCapacity hs smallest failed)⟩

end Sys2Proof.Machine
end

