-- ==== Sys2Proof/Proofs/Loading.lean ====
section
/-! SUPPORT. Words put in storage by the host before a run (70_reset_and_hazards.md R141): one word in RAM or VIDEO, the
loader as word writes in address order, and the word placed at the pc (log 23). -/

namespace Sys2Proof.Machine

/-! One word in RAM or VIDEO. -/

/-- A word store in RAM or VIDEO reaches no address before or after its four bytes (R29, R30). -/
theorem afterWrites_word_outside (s : State) {a b : Word} (v : Word) (h : a.toNat ≤ 0x8FFFC)
    (outside : b.toNat < a.toNat ∨ a.toNat + 4 ≤ b.toNat) : afterWrites s b (storeBytes a v .word) = s.byteAt b := by
  have n1 : (a + 1#32).toNat = a.toNat + 1 := toNat_add_ofNat a 1 (by omega)
  have n2 : (a + 2#32).toNat = a.toNat + 2 := toNat_add_ofNat a 2 (by omega)
  have n3 : (a + 3#32).toNat = a.toNat + 3 := toNat_add_ofNat a 3 (by omega)
  simp only [afterWrites, storeBytes, List.foldl_cons, List.foldl_nil,
    sameCell_ram_video (a := a) (by omega), sameCell_ram_video (a := a + 1#32) (by omega),
    sameCell_ram_video (a := a + 2#32) (by omega), sameCell_ram_video (a := a + 3#32) (by omega), ← BitVec.toNat_inj,
    n1, n2, n3]
  rw [if_neg (by omega), if_neg (by omega), if_neg (by omega), if_neg (by omega)]

/-- A word written in RAM or VIDEO is held at its address, and only storage changes. The bus record plays no part, so this
asks for less than the invariant (N18, log 23). -/
theorem writeWord_holdsWord {s : State} (hm : s.mem.wf) (hc : Config.minCapacity ≤ s.capacity) {a : Word} (v : Word)
    (h : a.toNat ≤ 0x8FFFC) : ∃ m, s.writeWord a v = ({ s with mem := m }, none) ∧ m.wf ∧
      HoldsWord { s with mem := m } a v ∧
      ∀ b, b.toNat < a.toNat ∨ a.toNat + 4 ≤ b.toNat → readByte m b = readByte s.mem b := by
  have idle : Inv { s with busCtrl := .idle } := .of_idle hm hc rfl
  obtain ⟨m, e, wf, bytes⟩ := memWrite_below idle (a := a) (n := .word) v (by simp only [Width.bytes]; omega)
  refine ⟨m, ?_, wf, holdsWord_of_storeBytes (s := s) h bytes,
    fun b outside => (bytes b).trans (afterWrites_word_outside s v h outside)⟩
  exact congrArg (fun r : Memory × Option FaultCause => ({ s with mem := r.1 }, r.2)) e

/-- A held word stays where its four bytes read as before. -/
theorem HoldsWord.of_byteAt_eq {s t : State} {a w : Word} (held : HoldsWord s a w) (h : a.toNat + 3 < 2 ^ 32)
    (same : ∀ b : Word, a.toNat ≤ b.toNat → b.toNat ≤ a.toNat + 3 → t.byteAt b = s.byteAt b) : HoldsWord t a w := by
  have n1 := toNat_add_ofNat a 1 (by omega)
  have n2 := toNat_add_ofNat a 2 (by omega)
  have n3 := toNat_add_ofNat a 3 (by omega)
  obtain ⟨h0, h1, h2, h3⟩ := held
  exact ⟨(same a (by omega) (by omega)).trans h0, (same (a + 1#32) (by omega) (by omega)).trans h1,
    (same (a + 2#32) (by omega) (by omega)).trans h2, (same (a + 3#32) (by omega) (by omega)).trans h3⟩

/-! The loader (R141). -/

/-- The loader from `a` on completes inside RAM and VIDEO: word `i` is held at `a + 4i`, only storage changes, and no
address before or after the image reads otherwise. -/
theorem loadFrom_holdsWords (ws : List Word) {s : State} (hm : s.mem.wf) (hc : Config.minCapacity ≤ s.capacity) {a : Word}
    (h : a.toNat + 4 * ws.length ≤ 0x90000) : ∃ m, s.loadFrom a ws = ({ s with mem := m }, none) ∧
      (∀ (i : Nat) (hi : i < ws.length), HoldsWord { s with mem := m } (a + BitVec.ofNat 32 (4 * i)) ws[i]) ∧
      ∀ b : Word, b.toNat < a.toNat ∨ a.toNat + 4 * ws.length ≤ b.toNat → readByte m b = readByte s.mem b := by
  induction ws generalizing s a with
  | nil => exact ⟨s.mem, rfl, fun i hi => absurd hi (Nat.not_lt_zero i), fun _ _ => rfl⟩
  | cons w ws ih =>
    have len : (w :: ws).length = ws.length + 1 := List.length_cons
    have next : (a + 4#32).toNat = a.toNat + 4 := toNat_add_ofNat a 4 (by omega)
    obtain ⟨m1, e1, wf1, first, outside1⟩ := writeWord_holdsWord hm hc (a := a) w (by omega)
    obtain ⟨m, e, rest, outside⟩ := ih (s := { s with mem := m1 }) wf1 hc (a := a + 4#32) (by omega)
    refine ⟨m, by rw [State.loadFrom, e1]; exact e, fun i hi => ?_, fun b hb =>
      (outside b (by omega)).trans (outside1 b (by omega))⟩
    cases i with
    | zero =>
      rw [Nat.mul_zero, BitVec.add_zero]
      exact first.of_byteAt_eq (by omega) fun b _ _ => outside b (by omega)
    | succ i =>
      rw [show a + BitVec.ofNat 32 (4 * (i + 1)) = a + 4#32 + BitVec.ofNat 32 (4 * i) by
        rw [Nat.mul_succ, Nat.add_comm, BitVec.ofNat_add, BitVec.add_assoc]]
      exact rest i (Nat.lt_of_succ_lt_succ hi)

/-- Settles O29, by the loader from address 0: a held word is the one the host reads. -/
theorem loadedProgramIsInPlace : Obligations.LoadedProgramIsInPlace := by
  intro ws s hs fits
  obtain ⟨m, e, held, outside⟩ := loadFrom_holdsWords ws hs.memory hs.capacity (a := 0#32)
    (by rw [BitVec.toNat_zero]; omega)
  refine ⟨_, e, fun _ => rfl, rfl, rfl, ⟨rfl, rfl, rfl⟩, ⟨rfl, rfl⟩, rfl, fun i hi => ?_, fun b hb =>
    outside b (.inr (by rw [BitVec.toNat_zero]; omega))⟩
  have word := held i hi
  rw [BitVec.zero_add] at word
  exact memRead_of_holdsWord (s := { s with mem := m }) hs.capacity (by rw [BitVec.toNat_ofNat]; omega) word

/-! The word placed at the pc (log 23). -/

/-- The four bytes at the pc of a machine made ready to fetch lie in RAM or VIDEO. -/
theorem readyToFetch_pc_le (s : State) : s.readyToFetch.pc.toNat ≤ 0x8FFFC := by
  unfold State.readyToFetch Config.videoEnd Config.resetPc
  split
  · next inside => exact Nat.le_sub_of_add_le inside
  · exact Nat.zero_le _

/-- The next step of a machine made ready fetches (R61, R62). -/
theorem fetching_readyToFetch (s : State) : Fetching s.readyToFetch := by
  have capacity : Config.minCapacity ≤ s.readyToFetch.capacity := Nat.le_max_right ..
  have pc := readyToFetch_pc_le s
  exact ⟨rfl, capacity, by unfold Config.minCapacity at capacity; omega⟩

/-- A word placed at a pc in RAM or VIDEO stands there: placing is the host's word write. -/
theorem placeWord_atPc {s : State} (hm : s.mem.wf) (hc : Config.minCapacity ≤ s.capacity) (w : Word)
    (h : s.pc.toNat ≤ 0x8FFFC) : AtPc (s.placeWord w) w := by
  obtain ⟨m, e, _, held, _⟩ := writeWord_holdsWord hm hc (a := s.pc) w h
  have placed : s.placeWord w = { s with mem := m } := congrArg Prod.fst e
  rw [placed]
  exact held

/-- Settles O51: the machine is made ready to fetch, and the placed word stands at its pc. -/
theorem aPlacedWordRunsNext : Obligations.APlacedWordRunsNext := by
  intro w i s hm hd
  obtain ⟨running, capacity, space⟩ := fetching_readyToFetch s
  have held := placeWord_atPc (s := s.readyToFetch) hm capacity w (readyToFetch_pc_le s)
  rw [State.withFetchWord, tableWord_toNat]
  exact ⟨fun _ => rfl, step_of_atPc ⟨running, capacity, space⟩ held hd⟩

end Sys2Proof.Machine
end
